-- ==== Sys2Proof/Word.lean ====
section
/-! DEFINITION. The word types and the plain containers of the model: a byte, a 64-bit register word, and the
sixteen-element bank that the spec uses for every operand bank (10_state.md R25) and for the constant table (R6). -/

namespace Sys2Proof

/-- One byte of a buffer (10_state.md R34), or one 8-bit bank element. -/
abbrev Byte := BitVec 8

/-- One 64-bit register word (10_state.md R20). -/
abbrev Word := BitVec 64

/-- Sixteen like elements, index 0 first: an operand bank (10_state.md R25) or the constant table (00_scope.md R6). -/
structure Bank (α : Type) where
  e0 : α
  e1 : α
  e2 : α
  e3 : α
  e4 : α
  e5 : α
  e6 : α
  e7 : α
  e8 : α
  e9 : α
  e10 : α
  e11 : α
  e12 : α
  e13 : α
  e14 : α
  e15 : α
deriving DecidableEq, Repr

/-- A 4×4 matrix: the element in row r, column c (00_scope.md R11). -/
abbrev Mat (α : Type) := Fin 4 → Fin 4 → α

end Sys2Proof
end

