-- ==== Sys2Proof/Machine/Bytes.lean ====
section
/-! DEFINITION. The byte order of the bus: little-endian (20_memory.md R74). -/

namespace Sys2Proof.Machine

/-- The n bytes of a value, lowest address first: byte k carries bits [8k+7:8k] (20_memory.md R74). -/
def littleBytes (n : Nat) (w : Word) : List Byte :=
  (List.range n).map fun k => w.extractLsb' (8 * k) 8

/-- The value whose byte k is the k-th of the list, zero above the last (20_memory.md R74). -/
def ofLittleBytes : List Byte → Word
  | [] => 0
  | b :: bs => (ofLittleBytes bs <<< 8) ||| b.setWidth 64

end Sys2Proof.Machine
end

