-- ==== Sys2Proof/Syntax.lean ====
section
/-! DEFINITION. The command set: one constructor per row of spec/opcode_table.json (30_encoding.md R103). A command word
carries no operand field and no immediate (R102), so no constructor has an argument. -/

namespace Sys2Proof

/-- The fourteen commands (30_encoding.md R103). -/
inductive Instr where
  /-- NOP (44_control.md R276). -/
  | nop
  /-- MAT_LOAD (40_matrix_scrambler.md R140). -/
  | matLoad
  /-- MAT_STORE (40_matrix_scrambler.md R141). -/
  | matStore
  /-- SCRAMBLE (40_matrix_scrambler.md R142). -/
  | scramble
  /-- UNSCRAMBLE (40_matrix_scrambler.md R143). -/
  | unscramble
  /-- PIN_CHECK (41_key_masking.md R164). -/
  | pinCheck
  /-- MASK (41_key_masking.md R167). -/
  | mask
  /-- UNMASK (41_key_masking.md R171). -/
  | unmask
  /-- ENC_CH (42_channel_codec.md R206). -/
  | encCh
  /-- DEC_CH (42_channel_codec.md R207). -/
  | decCh
  /-- ENC_PIX (42_channel_codec.md R208). -/
  | encPix
  /-- DEC_PIX (42_channel_codec.md R209). -/
  | decPix
  /-- EMBED (43_payload.md R237). -/
  | embed
  /-- EXTRACT (43_payload.md R241). -/
  | extract
deriving DecidableEq, Repr

end Sys2Proof
end

