-- ==== Sys2Proof/Decode.lean ====
section
/-! DEFINITION. Decoding a command word (30_encoding.md R100, R103, R105), total on every word and every list of bytes
and rejecting by name, and the encoder written from the same opcode map. -/

namespace Sys2Proof

/-- Why a word is illegal, or why bytes hold no command word. -/
inductive DecodeError where
  /-- RSVD is not 0 (30_encoding.md R100, R104). -/
  | reservedBits
  /-- RSVD is 0 and OPCODE is not assigned (30_encoding.md R104). -/
  | unassignedOpcode
  /-- Fewer than eight bytes: a command is exactly one 64-bit word (30_encoding.md R101). -/
  | truncated
deriving DecidableEq, Repr

/-- OPCODE, bits [7:0] (30_encoding.md R100). -/
def opcodeField (w : Word) : BitVec 8 := w.extractLsb' 0 8

/-- RSVD, bits [63:8] (30_encoding.md R100). -/
def rsvdField (w : Word) : BitVec 56 := w.extractLsb' 8 56

/-- The opcode map (30_encoding.md R103, R105). -/
def decodeOpcode (op : BitVec 8) : Option Instr :=
  match op.toNat with
  | 0x00 => some .nop
  | 0x01 => some .matLoad
  | 0x02 => some .matStore
  | 0x03 => some .scramble
  | 0x04 => some .unscramble
  | 0x10 => some .pinCheck
  | 0x11 => some .mask
  | 0x12 => some .unmask
  | 0x20 => some .encCh
  | 0x21 => some .decCh
  | 0x22 => some .encPix
  | 0x23 => some .decPix
  | 0x30 => some .embed
  | 0x31 => some .extract
  | _ => none

/-- `decode(w)` (30_encoding.md R105); an error is the rule's Illegal, with its cause. -/
def decode (w : Word) : Except DecodeError Instr :=
  if rsvdField w ≠ 0 then .error .reservedBits
  else match decodeOpcode (opcodeField w) with
    | some i => .ok i
    | none => .error .unassignedOpcode

/-- Decoding from bytes: a command is the eight bytes of one 64-bit write to CMD (30_encoding.md R101), little-endian
(20_memory.md R74). Answers the command and the rest of the bytes. -/
def decodeBytes (bs : List Byte) : Except DecodeError (Instr × List Byte) :=
  if bs.length < 8 then .error .truncated
  else match decode (Machine.ofLittleBytes (bs.take 8)) with
    | .ok i => .ok (i, bs.drop 8)
    | .error e => .error e

/-- The opcode of a command (30_encoding.md R103). -/
def opcode : Instr → BitVec 8
  | .nop => 0x00
  | .matLoad => 0x01
  | .matStore => 0x02
  | .scramble => 0x03
  | .unscramble => 0x04
  | .pinCheck => 0x10
  | .mask => 0x11
  | .unmask => 0x12
  | .encCh => 0x20
  | .decCh => 0x21
  | .encPix => 0x22
  | .decPix => 0x23
  | .embed => 0x30
  | .extract => 0x31

/-- The command word of a command: OPCODE in bits [7:0], RSVD zero (30_encoding.md R100, R103). -/
def encode (i : Instr) : Word := (0 : BitVec 56) ++ opcode i

/-- The eight bytes of a command word as the host writes them (20_memory.md R74). -/
def encodeBytes (i : Instr) : List Byte := Machine.littleBytes 8 (encode i)

/-- The command word whose low nbits bits are those of w and whose other bits are 0. -/
def fetchWord (nbits w : Nat) : Word := BitVec.ofNat 64 (w % 2 ^ nbits)

/-- The command that the decoder reads from an opcode-table word (bit 0 the least significant; every bit above nbits 0),
laid out as the eight bytes of a bus write. -/
def decodeTableWord (nbits w : Nat) : Option Instr :=
  if w % 2 ^ nbits < 2 ^ 64 then
    match decodeBytes (Machine.littleBytes 8 (fetchWord nbits w)) with
    | .ok (i, _) => some i
    | .error _ => none
  else none

end Sys2Proof
end

