-- ==== Sys2Proof/Machine/Banks.lean ====
section
/-! DEFINITION. Reading and writing the sixteen elements of a bank, and the row-major view of a bank as a 4×4
matrix (00_scope.md R11, 10_state.md R25). -/

namespace Sys2Proof.Machine

variable {α β : Type}

/-- Element i of a bank (00_scope.md R12, `BANK[i]`). -/
def bankGet (b : Bank α) (i : Fin 16) : α :=
  match i.val with
  | 0 => b.e0 | 1 => b.e1 | 2 => b.e2 | 3 => b.e3
  | 4 => b.e4 | 5 => b.e5 | 6 => b.e6 | 7 => b.e7
  | 8 => b.e8 | 9 => b.e9 | 10 => b.e10 | 11 => b.e11
  | 12 => b.e12 | 13 => b.e13 | 14 => b.e14 | _ => b.e15

/-- The bank whose element i is f i. -/
def bankOf (f : Fin 16 → α) : Bank α :=
  ⟨f 0, f 1, f 2, f 3, f 4, f 5, f 6, f 7, f 8, f 9, f 10, f 11, f 12, f 13, f 14, f 15⟩

/-- `BANK[i] <- v` (00_scope.md R12). -/
def bankSet (b : Bank α) (i : Fin 16) (v : α) : Bank α :=
  bankOf fun j => if j = i then v else bankGet b j

/-- The bank all of whose elements are v. -/
def bankFill (v : α) : Bank α := bankOf fun _ => v

/-- The elements in index order. -/
def bankList (b : Bank α) : List α :=
  [b.e0, b.e1, b.e2, b.e3, b.e4, b.e5, b.e6, b.e7, b.e8, b.e9, b.e10, b.e11, b.e12, b.e13, b.e14, b.e15]

/-- The flat row-major index 4*r + c (00_scope.md R11). -/
def flatIndex (r c : Fin 4) : Fin 16 := ⟨4 * r.val + c.val, by omega⟩

/-- The row of a flat index (40_matrix_scrambler.md R131, `j div 4`). -/
def rowOf (j : Fin 16) : Fin 4 := ⟨j.val / 4, by omega⟩

/-- The column of a flat index (40_matrix_scrambler.md R131, `j mod 4`). -/
def colOf (j : Fin 16) : Fin 4 := ⟨j.val % 4, by omega⟩

/-- A bank of 4×4 elements read as a matrix: MAT[r][c] is element 4r + c (10_state.md R25). -/
def bankMatrix (b : Bank α) : Mat α := fun r c => bankGet b (flatIndex r c)

/-- The bank that holds a matrix row by row. -/
def matrixBank (M : Mat α) : Bank α := bankOf fun j => M (rowOf j) (colOf j)

end Sys2Proof.Machine
end

