-- ==== Sys2Proof/Machine/Matrix.lean ====
section
/-! DEFINITION. The Matrix Codec and the Scrambler as functions (40_matrix_scrambler.md R130 to R136), and the exact
linear algebra that the key-masking unit uses (00_scope.md R11). -/

namespace Sys2Proof.Machine

variable {α V : Type}

/-- The Scrambler's mode (00_scope.md R14): "seed" or "prime". -/
inductive Mode where
  | seed
  | prime
deriving DecidableEq, Repr

/-! ## Matrix Codec -/

/-- The index `x mod 16`, Euclidean (00_scope.md R9): 0..15 also for a negative x. -/
def idx16 (x : Int) : Fin 16 := ⟨(x % 16).toNat, by omega⟩

/-- `toMatrix(seq, offset)` (40_matrix_scrambler.md R130). -/
def toMatrix (seq : Fin 16 → V) (offset : Int) : Mat V :=
  fun r c => seq (idx16 (offset + 4 * r.val + c.val))

/-- `round(x)`: the nearest integer, a tie to the even one (40_matrix_scrambler.md R132). -/
def roundEven (x : ℚ) : ℤ :=
  let below := x.floor
  let part := x - below
  if part < 1 / 2 then below
  else if 1 / 2 < part then below + 1
  else if below % 2 = 0 then below
  else below + 1

/-- The working list of `toSequence`: the matrix row by row, each entry rounded (40_matrix_scrambler.md R131). -/
def workingList (M : Mat ℚ) : Fin 16 → ℤ := fun j => roundEven (M (rowOf j) (colOf j))

/-- The element emitted when the running offset is o: with `idx = o mod 16`, the first element when idx is 0 and
the element idx before the end otherwise (40_matrix_scrambler.md R131). -/
def readBack (w : Fin 16 → V) (o : Int) : V :=
  if o % 16 = 0 then w 0 else w (idx16 (16 - o % 16))

/-- `toSequence(matrix, offset)`: at step i the running offset is offset - i (40_matrix_scrambler.md R131). -/
def toSequence (M : Mat ℚ) (offset : Int) : Fin 16 → ℤ :=
  fun i => readBack (workingList M) (offset - i.val)

/-! ## Scrambler -/

/-- The partner e(m): the row and column that is swapped with row and column 0 (40_matrix_scrambler.md R134). -/
def partner (m : Fin 4) : Fin 4 := if m = 0 then 3 else m

/-- The advance of mixIndex (40_matrix_scrambler.md R134). -/
def advance (m : Fin 4) (mode : Mode) : Fin 4 :=
  match mode with
  | .prime => ⟨(m.val + 3) % 4, by omega⟩
  | .seed => ⟨(m.val + 2) % 3, by omega⟩

/-- The index that a and b exchanged leaves at r. -/
def exchange (a b r : Fin 4) : Fin 4 := if r = a then b else if r = b then a else r

/-- `swapRows(M, a, b)` (40_matrix_scrambler.md R134). -/
def swapRows (M : Mat α) (a b : Fin 4) : Mat α := fun r c => M (exchange a b r) c

/-- `swapCols(M, a, b)` (40_matrix_scrambler.md R134). -/
def swapCols (M : Mat α) (a b : Fin 4) : Mat α := fun r c => M r (exchange a b c)

/-- One round of `scramble`: rows, then columns (40_matrix_scrambler.md R135). -/
def scrambleRound (M : Mat α) (m : Fin 4) : Mat α :=
  swapCols (swapRows M 0 (partner m)) 0 (partner m)

/-- `scramble(M, mixIndex, mode)` (40_matrix_scrambler.md R135). -/
def scramble (M : Mat α) (m : Fin 4) (mode : Mode) : Mat α :=
  scrambleRound (scrambleRound M m) (advance m mode)

/-- One round of `unscramble`: columns, then rows (40_matrix_scrambler.md R136). -/
def unscrambleRound (M : Mat α) (m : Fin 4) : Mat α :=
  swapRows (swapCols M 0 (partner m)) 0 (partner m)

/-- `unscramble(M, mixIndex, mode)` (40_matrix_scrambler.md R136): mixIndex is advanced once before the first round and
is the original value in the second. -/
def unscramble (M : Mat α) (m0 : Fin 4) (mode : Mode) : Mat α :=
  unscrambleRound (unscrambleRound M (advance m0 mode)) m0

/-! ## Exact linear algebra -/

/-- The exact matrix product `A · B` (00_scope.md R11). -/
def matMul [Add α] [Mul α] (A B : Mat α) : Mat α :=
  fun r c => A r 0 * B 0 c + A r 1 * B 1 c + A r 2 * B 2 c + A r 3 * B 3 c

/-- The matrix without row i and column j. -/
def minor (A : Mat α) (i j : Fin 4) : Fin 3 → Fin 3 → α :=
  fun r c => A (i.succAbove r) (j.succAbove c)

/-- The exact determinant of a 3×3 matrix. -/
def det3 [Add α] [Sub α] [Mul α] (B : Fin 3 → Fin 3 → α) : α :=
  B 0 0 * (B 1 1 * B 2 2 - B 1 2 * B 2 1)
    - B 0 1 * (B 1 0 * B 2 2 - B 1 2 * B 2 0)
    + B 0 2 * (B 1 0 * B 2 1 - B 1 1 * B 2 0)

/-- The exact determinant `det(A)` (00_scope.md R11), by expansion along row 0. -/
def det4 [Add α] [Sub α] [Mul α] (A : Mat α) : α :=
  A 0 0 * det3 (minor A 0 0) - A 0 1 * det3 (minor A 0 1)
    + A 0 2 * det3 (minor A 0 2) - A 0 3 * det3 (minor A 0 3)

/-- The cofactor of row i, column j. -/
def cofactor (A : Mat ℚ) (i j : Fin 4) : ℚ :=
  if (i.val + j.val) % 2 = 0 then det3 (minor A i j) else - det3 (minor A i j)

/-- The exact inverse `inv(A)` over ℚ (00_scope.md R11), meant only where det4 A is not 0: the transposed cofactors over the
determinant. The spec leaves the algorithm open (41_key_masking.md, introduction: any algorithm that gives the exact
result conforms; log 14). -/
def matInv (A : Mat ℚ) : Mat ℚ := fun r c => cofactor A c r / det4 A

/-- An integer matrix read over ℚ. -/
def toRat (A : Mat ℤ) : Mat ℚ := fun r c => (A r c : ℚ)

end Sys2Proof.Machine
end

