-- ==== Sys2Proof/Config.lean ====
section
/-! DEFINITION. What an implementation fixes (00_scope.md R6: the parameters) and the values the spec leaves free
(93_implementation_defined.md I5, I7, I8, I9): constants without a body, so that no proof can learn their values. -/

namespace Sys2Proof.Config

/-- One set of implementation parameters (00_scope.md R6). -/
structure Params where
  /-- CONST_TABLE, the "prime list". -/
  constTable : Bank Nat
  /-- SEED_OFS_CONST. -/
  seedOfsConst : Nat
  /-- TABLE_OFS_CONST. -/
  tableOfsConst : Nat
  /-- PIX_MAX, in pixels. -/
  pixMax : Nat
  /-- MSG_MAX, in bytes. -/
  msgMax : Nat
  /-- META_MAX, in bytes. -/
  metaMax : Nat
  /-- BASE, the bus address of the window. -/
  base : Nat
deriving DecidableEq, Repr

/-- T_LIMIT = floor((2^64 - 1) / 1040400) (00_scope.md R7 item 2). -/
def tLimit : Nat := 17730434519136

/-- 00_scope.md R7 items 1 and 2: every entry is positive and at most T_LIMIT. -/
def tableInRange (P : Params) : Bool :=
  (Machine.bankList P.constTable).all fun t => decide (1 ≤ t) && decide (t ≤ tLimit)

/-- The constant table as a sequence of integers. -/
def tableSeq (P : Params) : Fin 16 → ℤ := fun i => ((Machine.bankGet P.constTable i : ℕ) : ℤ)

/-- 00_scope.md R7 item 3: no toMatrix(CONST_TABLE, o) is singular. -/
def tableInvertible (P : Params) : Bool :=
  (List.range 16).all fun o =>
    decide (Machine.det4 (Machine.toMatrix (tableSeq P) (o : ℤ)) ≠ 0)

/-- 00_scope.md R6: the capacities and their bounds. -/
def capacitiesOk (P : Params) : Bool :=
  decide (1 ≤ P.pixMax) && decide (P.pixMax ≤ 262144)
    && decide ((P.pixMax + 7) / 8 ≤ P.msgMax) && decide (P.msgMax ≤ 1048576)
    && decide ((P.pixMax + 7) / 8 ≤ P.metaMax) && decide (P.metaMax ≤ 1048576)

/-- 00_scope.md R6: BASE is aligned to 0x400000. -/
def baseAligned (P : Params) : Bool := decide (P.base % 0x400000 = 0)

/-- A parameter set the spec admits (00_scope.md R6, R7). Any other is refused: it cannot be the value of `Config.chosen`. -/
def Params.wf (P : Params) : Bool :=
  tableInRange P && tableInvertible P && capacitiesOk P && baseAligned P

/-- The parameter set TT of 95_test_vectors.md section 2, "not the original's table". Only a witness that admitted
parameter sets exist, and the parameters of this package's tests; no step of the machine reads it. -/
def testTT : Params :=
  { constTable := ⟨2, 3, 5, 7, 11, 13, 17, 19, 23, 29, 31, 37, 41, 43, 47, 53⟩
    seedOfsConst := 100, tableOfsConst := 200
    pixMax := 1024, msgMax := 1024, metaMax := 1024, base := 0 }

/-- A parameter set together with the fact that the spec admits it. -/
structure Admitted where
  raw : Params := testTT
  ok : raw.wf = true := by decide +kernel
deriving Inhabited

/-- The parameters of this implementation (00_scope.md R6: CONST_TABLE, SEED_OFS_CONST, TABLE_OFS_CONST, PIX_MAX, MSG_MAX,
META_MAX, BASE). No body: any admitted set, none of them chosen (log 1). -/
opaque chosen : Admitted

/-- The parameters as the machine reads them. -/
def hw : Params := chosen.raw

/-- FREE VALUE (93_implementation_defined.md I5; 70_reset_and_hazards.md R321, 20_memory.md R78): what a byte that nothing has
written reads as, for draw number d and window offset a (log 5, log 6). -/
opaque unwrittenByte (d a : Nat) : Byte

/-- FREE VALUE (93_implementation_defined.md I8; 70_reset_and_hazards.md R327): what a host read of a register that the command
in flight writes returns, for draw number d (log 7). -/
opaque busyReadWord (d : Nat) : Word

/-- FREE VALUE (93_implementation_defined.md I8; 70_reset_and_hazards.md R327): what a host read of a buffer byte that the command
in flight writes returns, for draw number d and window offset a (log 7). -/
opaque busyReadByte (d a : Nat) : Byte

/-- FREE VALUE (93_implementation_defined.md I7; 44_control.md R272): how many host steps the host may take between the issue
with draw number d and the command's completion (log 4). -/
opaque latency (d : Nat) : Nat

/-- FREE VALUE (93_implementation_defined.md I9; 70_reset_and_hazards.md R322): whether the byte at window offset a holds the value
the aborted command would have written (true) or the one before it (false), for draw number d (log 10). -/
opaque abortTakesNew (d a : Nat) : Bool

end Sys2Proof.Config
end

