-- ==== Sys2Proof/Machine/State.lean ====
section
/-! DEFINITION. The state of the machine as plain data: every register of 10_state.md, the three buffers as one memory,
the engine phase, and the model's own four fields (the host's remaining operations, the read data return, the latency
and the draw index). -/

namespace Sys2Proof.Machine

/-- The error codes STATUS.ERR can hold (60_exceptions.md R290). Codes 7 to 15 are reserved and never held
(93_implementation_defined.md I15: a model refuses a state that holds one), so they have no constructor (log 15). -/
inductive ErrorCode where
  /-- 0, no error. -/
  | ok
  /-- 1, an illegal command word (R275). -/
  | illegal
  /-- 2, the source's NotInvertible. -/
  | notInvertible
  /-- 3, the source's CapacityExceeded. -/
  | capacity
  /-- 4, a length or count above its buffer's capacity. -/
  | range
  /-- 5, a channel pattern outside the codec's range. -/
  | decode
  /-- 6, a channel value above 255. -/
  | domain
deriving DecidableEq, Repr

/-- The result flags, STATUS[23:16] (10_state.md R24). -/
structure ResultFlags where
  /-- STATUS[16], the pin matrix is singular. -/
  pinsing : Bool := false
  /-- STATUS[17], UNMASK produced an element outside 0..255. -/
  seedRange : Bool := false
  /-- STATUS[18], EXTRACT did not find the message end marker. -/
  msgNf : Bool := false
  /-- STATUS[19], EXTRACT did not find the metadata end marker. -/
  metaNf : Bool := false
  /-- STATUS[20], EMBED had a metadata stream longer than the message stream. -/
  metaTrunc : Bool := false
  /-- STATUS[21], EMBED had fewer pixels than the message stream has bits. -/
  capShort : Bool := false
  /-- STATUS[22], EXTRACT's message bit count was no multiple of 8. -/
  msgAlign : Bool := false
  /-- STATUS[23], EXTRACT's metadata bit count was no multiple of 8. -/
  metaAlign : Bool := false
deriving DecidableEq, Repr

/-- The named fields of ARG (10_state.md R27). -/
structure ArgFields where
  /-- ARG[3:0]. -/
  offset : BitVec 4
  /-- ARG[9:8]. -/
  mix : BitVec 2
  /-- ARG[16]. -/
  mode : Bool
deriving DecidableEq, Repr

/-- The named fields of OFFS (10_state.md R28). -/
structure OffsFields where
  /-- OFFS[3:0], pinOffset. -/
  op : BitVec 4
  /-- OFFS[11:8], keySeedOffset. -/
  ok : BitVec 4
  /-- OFFS[19:16], tableOffset. -/
  ot : BitVec 4
  /-- OFFS[25:24], the key-seed matrix's mixIndex. -/
  mixs : BitVec 2
  /-- OFFS[29:28], the constant-table matrix's mixIndex. -/
  mixt : BitVec 2
deriving DecidableEq, Repr

/-- The engine phase (10_state.md R36, 44_control.md R270). Of the snapshot only CTRL.STRICT is kept: host writes to every
other operand are dropped while Busy, so the live values are the snapshot's (44_control.md R271; log 8). -/
inductive Phase where
  /-- No command is in flight. -/
  | idle
  /-- The command word in flight, and CTRL.STRICT as sampled at its issue. -/
  | busy (cmd : Word) (strict : Bool)
deriving DecidableEq, Repr

/-- The buffers as (window offset, byte) pairs (20_memory.md R70). An offset that is not listed is a byte that nothing has
written since power-on (10_state.md R20, 70_reset_and_hazards.md R321; log 5). -/
abbrev Memory := List Host.Cell

/-- One operation of the host or the platform (44_control.md R270: one host step is one bus access; log 3). Offsets are
offsets from BASE in the window of 2^22 bytes (20_memory.md R70; log 11). -/
inductive HostOp where
  /-- A bus read of `width` bytes. -/
  | read (offset : BitVec 22) (width : Nat)
  /-- A bus write of the low `width` bytes of `data`. -/
  | write (offset : BitVec 22) (width : Nat) (data : Word)
  /-- The pseudo-instruction `wait` (30_encoding.md R107): one read of STATUS, repeated while BUSY reads 1. -/
  | wait
  /-- The power-on reset input (70_reset_and_hazards.md R320; log 12). -/
  | powerOn
deriving DecidableEq, Repr

/-- The machine's state (10_state.md R20). A register is held as its named fields; its reserved bits read as 0 and hold
nothing (R21). ID is constant (R22) and STATUS.BUSY is the phase (R24), so neither has a field. -/
structure State where
  /-- CTRL.IE (R23). -/
  ie : Bool
  /-- CTRL.STRICT (R23). -/
  strict : Bool
  /-- STATUS.DONE (R24). -/
  done : Bool
  /-- STATUS.ERR (R24). -/
  err : ErrorCode
  /-- STATUS[23:16] (R24). -/
  flags : ResultFlags
  /-- STATUS.ACCERR (R24). -/
  accerr : Bool
  /-- STATUS.BUSYWR (R24). -/
  busywr : Bool
  /-- CMD (R26). -/
  cmd : Word
  /-- ARG (R27). -/
  arg : ArgFields
  /-- OFFS (R28). -/
  offs : OffsFields
  /-- NPIX (R29). -/
  npix : BitVec 32
  /-- MSG_LEN (R29). -/
  msgLen : BitVec 32
  /-- META_LEN (R29). -/
  metaLen : BitVec 32
  /-- XMSG_LEN (R30). -/
  xmsgLen : BitVec 32
  /-- XMETA_LEN (R30). -/
  xmetaLen : BitVec 32
  /-- XPIX (R30). -/
  xpix : BitVec 32
  /-- CH_VAL (R31). -/
  chVal : BitVec 10
  /-- CH_PAT (R31). -/
  chPat : BitVec 24
  /-- PIX_R (R32). -/
  pixR : BitVec 10
  /-- PIX_G (R32). -/
  pixG : BitVec 10
  /-- PIX_B (R32). -/
  pixB : BitVec 10
  /-- PIX_PAT_LO (R32). -/
  pixPatLo : Word
  /-- PIX_PAT_HI (R32). -/
  pixPatHi : Byte
  /-- PIN (R25), unsigned. -/
  pin : Bank Byte
  /-- SEED (R25), unsigned. -/
  seed : Bank Byte
  /-- SKEY (R25), unsigned. -/
  skey : Bank Word
  /-- SEED_OUT (R25), two's complement. -/
  seedOut : Bank Word
  /-- VEC (R25), two's complement. -/
  vec : Bank Word
  /-- MAT (R25), two's complement, MAT[r][c] at element 4r + c. -/
  mat : Bank Word
  /-- PIXMEM, MSGBUF and METABUF (R34). -/
  mem : Memory
  /-- The engine phase (R36). -/
  phase : Phase
  /-- The MODEL's own: how many further host steps the host may take before the command in flight completes (log 4). -/
  latency : Nat
  /-- The MODEL's own: what the host has still to do, first operation first (log 2, log 3). -/
  host : List HostOp
  /-- The MODEL's own: the read data return of the bus target port (70_reset_and_hazards.md R332; log 9). -/
  rdata : Word
  /-- The MODEL's own: the index of the next free value (log 6). -/
  draws : Nat
deriving DecidableEq, Repr

/-- The state right after power-on reset, with no host operation pending (10_state.md R37, 70_reset_and_hazards.md R320). -/
def State.reset : State where
  ie := false
  strict := false
  done := false
  err := .ok
  flags := {}
  accerr := false
  busywr := false
  cmd := 0
  arg := ⟨0, 0, false⟩
  offs := ⟨0, 0, 0, 0, 0⟩
  npix := 0
  msgLen := 0
  metaLen := 0
  xmsgLen := 0
  xmetaLen := 0
  xpix := 0
  chVal := 0
  chPat := 0
  pixR := 0
  pixG := 0
  pixB := 0
  pixPatLo := 0
  pixPatHi := 0
  pin := bankFill 0
  seed := bankFill 0
  skey := bankFill 0
  seedOut := bankFill 0
  vec := bankFill 0
  mat := bankFill 0
  mem := []
  phase := .idle
  latency := 0
  host := []
  rdata := 0
  draws := 0

/-- The reasons a step could stop with a fault. There is none: the block has no trap mechanism (60_exceptions.md R298), every
error is a completion with an error code, and every inadmissible access is a flag. -/
inductive Fault
deriving DecidableEq, Repr

/-- The reasons a step could be refused. -/
inductive Refusal where
  /-- Raised by an arm of `exec` whose command has no meaning yet. Safe: the model stops where the hardware goes on. No arm
  raises it now. -/
  | notModelled (mnemonic : String)
deriving DecidableEq, Repr

end Sys2Proof.Machine
end

