-- ==== Sys2Proof/Machine/Memory.lean ====
section
/-! DEFINITION. The memory operations: one byte read, one byte written, runs of bytes, and the per-byte choice between two
memories. A memory is a list of (window offset, byte) pairs in one canonical form: offsets strictly rising. An offset
that is not listed is an unwritten byte (10_state.md R20: `none`), so no listed entry can equal it. -/

namespace Sys2Proof.Machine

/-- The canonical form: offsets strictly rising. -/
def Memory.wf : Memory → Bool
  | [] => true
  | c :: m => m.all (fun d => decide (c.1 < d.1)) && Memory.wf m

/-- The byte at an offset, `none` while nothing has written it since power-on (10_state.md R20). This is the ONE
definition of what an unlisted offset reads as. -/
def Memory.read? : Memory → Nat → Option Byte
  | [], _ => none
  | c :: m, a => if a = c.1 then some c.2 else Memory.read? m a

/-- One byte written (70_reset_and_hazards.md R321: it stops being unspecified). -/
def Memory.write : Memory → Nat → Byte → Memory
  | [], a, v => [(a, v)]
  | c :: m, a, v =>
    if a < c.1 then (a, v) :: c :: m
    else if a = c.1 then (a, v) :: m
    else c :: Memory.write m a v

/-- A run of bytes written at a, a+1, … in this order. -/
def Memory.writeList : Memory → Nat → List Byte → Memory
  | m, _, [] => m
  | m, a, v :: vs => Memory.writeList (Memory.write m a v) (a + 1) vs

/-- The memory that holds `new`'s byte where takeNew says so and `old`'s elsewhere (70_reset_and_hazards.md R322). -/
def Memory.select (takeNew : Nat → Bool) (old new : Memory) : Memory :=
  (new.filter fun c => takeNew c.1).foldl (fun m c => Memory.write m c.1 c.2)
    (old.filter fun c => !takeNew c.1)

end Sys2Proof.Machine
end

