-- ==== Sys2Proof/Machine/Operands.lean ====
section
/-! DEFINITION. The operand forms: every operand of a command is implicit (30_encoding.md R102). How a command reads the
fields of ARG, the banks, the pixel pattern and the buffer bytes. -/

namespace Sys2Proof.Machine

/-- `offset = zext(ARG[3:0])` (30_encoding.md R102). -/
def State.argOffset (s : State) : Int := (s.arg.offset.toNat : Int)

/-- `mixIndex = zext(ARG[9:8])` (30_encoding.md R102). -/
def State.argMix (s : State) : Fin 4 := ⟨s.arg.mix.toNat, s.arg.mix.isLt⟩

/-- `mode = prime` when ARG[16] is 1, `seed` when it is 0 (30_encoding.md R102). -/
def State.argMode (s : State) : Mode := if s.arg.mode then .prime else .seed

/-- The elements of an unsigned bank as integers: PIN, SEED, SKEY (10_state.md R25). -/
def unsignedSeq {n : Nat} (b : Bank (BitVec n)) : Fin 16 → ℤ := fun i => ((bankGet b i).toNat : ℤ)

/-- The elements of a two's complement bank as integers: VEC, MAT, SEED_OUT (10_state.md R25). -/
def signedSeq (b : Bank Word) : Fin 16 → ℤ := fun i => (bankGet b i).toInt

/-- `trunc_64` of each of sixteen integers (00_scope.md R9). -/
def truncBank (f : Fin 16 → ℤ) : Bank Word := bankOf fun i => BitVec.ofInt 64 (f i)

/-- `PIX_PAT = PIX_PAT_HI[7:0] ++ PIX_PAT_LO[63:0]` (10_state.md R32). -/
def State.pixPattern (s : State) : BitVec 72 := s.pixPatHi ++ s.pixPatLo

/-- The window offset of byte 0 of PIXMEM (20_memory.md R70). -/
def pixBase : Nat := 0x100000

/-- The window offset of byte 0 of MSGBUF (20_memory.md R70). -/
def msgBase : Nat := 0x200000

/-- The window offset of byte 0 of METABUF (20_memory.md R70). -/
def metaBase : Nat := 0x300000

/-- The window offset of pixel p's green byte (20_memory.md R76). -/
def greenAt (p : Nat) : Nat := pixBase + 4 * p + 1

/-- The window offset of pixel p's blue byte (20_memory.md R76). -/
def blueAt (p : Nat) : Nat := pixBase + 4 * p + 2

/-- A buffer byte as the engine reads it with draw number d: a byte that nothing has written is a free value
(20_memory.md R78; log 5). -/
def engineByte (d : Nat) (m : Memory) (a : Nat) : Byte :=
  match Memory.read? m a with
  | some v => v
  | none => Config.unwrittenByte d a

/-- n buffer bytes from window offset a as the engine reads them. -/
def engineBytes (d : Nat) (m : Memory) (a n : Nat) : List Byte :=
  (List.range n).map fun k => engineByte d m (a + k)

end Sys2Proof.Machine
end

