-- ==== Sys2Proof/Machine/Flags.lean ====
section
/-! DEFINITION. The numbers of the error codes, the layout of STATUS, and the interrupt output. Each command computes its
own flag vector in its meaning. -/

namespace Sys2Proof.Machine

/-- The number of an error code (60_exceptions.md R290). -/
def ErrorCode.code : ErrorCode → BitVec 4
  | .ok => 0
  | .illegal => 1
  | .notInvertible => 2
  | .capacity => 3
  | .range => 4
  | .decode => 5
  | .domain => 6

/-- A one-bit field. -/
def bit (b : Bool) : BitVec 1 := BitVec.ofBool b

/-- The flag vector as STATUS[23:16], PINSING in bit 16 and META_ALIGN in bit 23 (10_state.md R24). -/
def ResultFlags.bits (f : ResultFlags) : BitVec 8 :=
  bit f.metaAlign ++ bit f.msgAlign ++ bit f.capShort ++ bit f.metaTrunc
    ++ bit f.metaNf ++ bit f.msgNf ++ bit f.seedRange ++ bit f.pinsing

/-- Whether a command is in flight. -/
def State.busy (s : State) : Bool :=
  match s.phase with
  | .idle => false
  | .busy _ _ => true

/-- The command word in flight. -/
def State.inFlight (s : State) : Option Word :=
  match s.phase with
  | .idle => none
  | .busy w _ => some w

/-- CTRL.STRICT as the command in flight sees it: sampled at its issue (10_state.md R23, 44_control.md R271). With no command in
flight it is the live bit (log 8). -/
def State.strictAtIssue (s : State) : Bool :=
  match s.phase with
  | .idle => s.strict
  | .busy _ st => st

/-- STATUS as a 64-bit read returns it (10_state.md R24). -/
def State.status (s : State) : Word :=
  (0 : BitVec 32) ++ bit s.busywr ++ bit s.accerr ++ (0 : BitVec 6) ++ s.flags.bits
    ++ (0 : BitVec 4) ++ s.err.code ++ (0 : BitVec 6) ++ bit s.done ++ bit s.busy

/-- The interrupt output IRQ = CTRL.IE ∧ STATUS.DONE (60_exceptions.md R296). -/
def State.irq (s : State) : Bool := s.ie && s.done

end Sys2Proof.Machine
end

