-- ==== Sys2Proof/Machine/Ops.lean ====
section
/-! DEFINITION. The shared operations of the command life cycle (44_control.md): issue, completion, and the two sticky access
flags. The block takes no exception (60_exceptions.md R298): what every command shares in its place is `State.complete`,
the completion that reports an error code. -/

namespace Sys2Proof.Machine

/-- Completion (44_control.md R274): ERR and all eight result flags are replaced, BUSY becomes 0 (the phase is Idle) and
DONE becomes 1. ACCERR and BUSYWR are not touched. -/
def State.complete (s : State) (e : ErrorCode) (f : ResultFlags) : State :=
  { s with err := e, flags := f, done := true, phase := .idle }

/-- Issue of the word w while Idle (44_control.md R271): CMD records it, DONE becomes 0, CTRL.STRICT is sampled and the phase
becomes Busy. The number of host steps to completion is drawn here (R272; log 4). -/
def State.issue (s : State) (w : Word) : State :=
  { s with cmd := w, done := false, phase := .busy w s.strict, latency := Config.latency s.draws }

/-- ACCERR set (20_memory.md R73). -/
def State.setAccErr (s : State) : State := { s with accerr := true }

/-- BUSYWR set: a host write was dropped (70_reset_and_hazards.md R326). -/
def State.setBusyWr (s : State) : State := { s with busywr := true }

/-- Every register at its reset value and the phase Idle, over the given buffers (10_state.md R37). The host's remaining
operations, the read data return and the draw index belong to the model and stay (log 12). -/
def State.resetOver (s : State) (m : Memory) : State :=
  { State.reset with mem := m, host := s.host, rdata := s.rdata, draws := s.draws }

/-- Power-on reset (70_reset_and_hazards.md R320, R321): every register at its reset value, every buffer byte unwritten. -/
def State.powerOnReset (s : State) : State := s.resetOver []

end Sys2Proof.Machine
end

