-- ==== Sys2Proof/Machine/ChannelCodec.lean ====
section
/-! DEFINITION. The Channel Codec and its commands (42_channel_codec.md). Every command here writes all result flags 0. -/

namespace Sys2Proof.Machine

/-- The decimal digits of v, most significant first, without leading zeros, for v up to 999 (42_channel_codec.md R200). -/
def decimalDigits (v : Nat) : List Nat :=
  if v < 10 then [v]
  else if v < 100 then [v / 10, v % 10]
  else [v / 100, v / 10 % 10, v % 10]

/-- The ASCII byte of a digit (42_channel_codec.md R200). -/
def digitByte (d : Nat) : Byte := BitVec.ofNat 8 (0x30 + d)

/-- Bytes concatenated, the first most significant, left-padded with zero bits to 24 (42_channel_codec.md R200). -/
def packBytes (bs : List Byte) : BitVec 24 :=
  bs.foldl (fun acc b => (acc <<< 8) ||| b.setWidth 24) 0

/-- `encodeChannel(v)` for v in 0..255 (42_channel_codec.md R200). -/
def encodeChannel (v : Nat) : BitVec 24 := packBytes ((decimalDigits v).map digitByte)

/-- A byte is an ASCII decimal digit (42_channel_codec.md R201). -/
def isDigit (b : Byte) : Bool := decide (0x30 ≤ b.toNat) && decide (b.toNat ≤ 0x39)

/-- The three bytes of a pattern, leftmost first (42_channel_codec.md R201). -/
def patternBytes (x : BitVec 24) : List Byte := [x.extractLsb' 16 8, x.extractLsb' 8 8, x.extractLsb' 0 8]

/-- `decodeChannel(bits)` (42_channel_codec.md R201, R202): only the leading zero bytes are dropped. -/
def decodeChannel (x : BitVec 24) : Option Nat :=
  let r := (patternBytes x).dropWhile fun b => b == 0
  if r.isEmpty then none
  else if r.all isDigit then some (r.foldl (fun acc b => 10 * acc + (b.toNat - 0x30)) 0)
  else none

/-- `encodePixel(r, g, b)` (42_channel_codec.md R205): red in bits [71:48], green in [47:24], blue in [23:0]. -/
def encodePixel (r g b : Nat) : BitVec 72 := encodeChannel r ++ encodeChannel g ++ encodeChannel b

/-- `decodePixel(x)` (42_channel_codec.md R205); `none` where any of the three patterns fails (R209). -/
def decodePixel (x : BitVec 72) : Option (Nat × Nat × Nat) :=
  match decodeChannel (x.extractLsb' 48 24), decodeChannel (x.extractLsb' 24 24), decodeChannel (x.extractLsb' 0 24) with
  | some r, some g, some b => some (r, g, b)
  | _, _, _ => none

/-- What ENC_CH does (42_channel_codec.md R206). -/
def encChCmd (s : State) : State :=
  if 255 < s.chVal.toNat then s.complete .domain {}
  else { s with chPat := encodeChannel s.chVal.toNat }.complete .ok {}

/-- What DEC_CH does (42_channel_codec.md R207). -/
def decChCmd (s : State) : State :=
  match decodeChannel s.chPat with
  | none => s.complete .decode {}
  | some v => { s with chVal := BitVec.ofNat 10 v }.complete .ok {}

/-- What ENC_PIX does (42_channel_codec.md R208). -/
def encPixCmd (s : State) : State :=
  if 255 < s.pixR.toNat ∨ 255 < s.pixG.toNat ∨ 255 < s.pixB.toNat then s.complete .domain {}
  else
    let x := encodePixel s.pixR.toNat s.pixG.toNat s.pixB.toNat
    { s with pixPatHi := x.extractLsb' 64 8, pixPatLo := x.extractLsb' 0 64 }.complete .ok {}

/-- What DEC_PIX does (42_channel_codec.md R209). -/
def decPixCmd (s : State) : State :=
  match decodePixel s.pixPattern with
  | none => s.complete .decode {}
  | some (r, g, b) =>
    { s with pixR := BitVec.ofNat 10 r, pixG := BitVec.ofNat 10 g, pixB := BitVec.ofNat 10 b }.complete .ok {}

/-- ENC_CH (42_channel_codec.md R206). -/
def execEncCh (s : State) : Host.Outcome State Fault Refusal := .next (encChCmd s)

/-- DEC_CH (42_channel_codec.md R207). -/
def execDecCh (s : State) : Host.Outcome State Fault Refusal := .next (decChCmd s)

/-- ENC_PIX (42_channel_codec.md R208). -/
def execEncPix (s : State) : Host.Outcome State Fault Refusal := .next (encPixCmd s)

/-- DEC_PIX (42_channel_codec.md R209). -/
def execDecPix (s : State) : Host.Outcome State Fault Refusal := .next (decPixCmd s)

end Sys2Proof.Machine
end

