-- ==== Sys2Proof/Machine/Control.lean ====
section
/-! DEFINITION. Command control (44_control.md): NOP, and the completion of an illegal word. -/

namespace Sys2Proof.Machine

/-- NOP (44_control.md R276): nothing but the completion; ERR becomes OK and the result flags 0. -/
def execNop (s : State) : Host.Outcome State Fault Refusal := .next (s.complete .ok {})

/-- The completion of an illegal word (44_control.md R275): ERR becomes ILLEGAL and the result flags 0; nothing else changes. -/
def completeIllegal (s : State) : State := s.complete .illegal {}

end Sys2Proof.Machine
end

