-- ==== Sys2Proof/Machine/KeyMasking.lean ====
section
/-! DEFINITION. The Key Masking Transform and its commands (41_key_masking.md). Every function takes the implementation
parameters as an argument (00_scope.md R6); the meanings give it the constant `Config.hw`. -/

namespace Sys2Proof.Machine

open Config (Params)

/-! ## Offsets and the internal matrices -/

/-- The sum of the sixteen pin codes (41_key_masking.md R160). -/
def pinSum (pin : Bank Byte) : Nat := ((bankList pin).map BitVec.toNat).sum

/-- The offset function `ofs(p, c)` (41_key_masking.md R160). -/
def ofs (pin : Bank Byte) (c : Nat) : Nat := (pinSum pin + c) / 16 % 16

/-- pinOffset oP (41_key_masking.md R161). -/
def pinOffset (pin : Bank Byte) : Nat := ofs pin 0

/-- keySeedOffset oK (41_key_masking.md R161). -/
def keySeedOffset (P : Params) (pin : Bank Byte) : Nat := ofs pin P.seedOfsConst

/-- tableOffset oT (41_key_masking.md R161). -/
def tableOffset (P : Params) (pin : Bank Byte) : Nat := ofs pin P.tableOfsConst

/-- mixS, the key-seed matrix's mixIndex (41_key_masking.md R161). -/
def mixSeed (P : Params) (pin : Bank Byte) : Fin 4 := ⟨(pinOffset pin + tableOffset P pin) % 4, by omega⟩

/-- mixT, the constant-table matrix's mixIndex (41_key_masking.md R161). -/
def mixTable (P : Params) (pin : Bank Byte) : Fin 4 := ⟨(pinOffset pin + tableOffset P pin) % 3, by omega⟩

/-- The packed offsets that PIN_CHECK, MASK and UNMASK write to OFFS (41_key_masking.md R161, 10_state.md R28). -/
def offsetsOf (P : Params) (pin : Bank Byte) : OffsFields where
  op := BitVec.ofNat 4 (pinOffset pin)
  ok := BitVec.ofNat 4 (keySeedOffset P pin)
  ot := BitVec.ofNat 4 (tableOffset P pin)
  mixs := BitVec.ofNat 2 (mixSeed P pin).val
  mixt := BitVec.ofNat 2 (mixTable P pin).val

/-- The pin matrix P = toMatrix(PIN, oP) (41_key_masking.md R162). -/
def pinMatrix (pin : Bank Byte) : Mat ℤ := toMatrix (unsignedSeq pin) (pinOffset pin : ℤ)

/-- The pin is singular: det(P) = 0, exactly (41_key_masking.md R162). -/
def pinSingular (pin : Bank Byte) : Bool := decide (det4 (pinMatrix pin) = 0)

/-- The scrambled constant-table matrix C' (41_key_masking.md R163). -/
def tableMatrix (P : Params) (pin : Bank Byte) : Mat ℤ :=
  scramble (toMatrix (Config.tableSeq P) (tableOffset P pin : ℤ)) (mixTable P pin) .prime

/-- The scrambled key-seed matrix K' (41_key_masking.md R165). -/
def seedMatrix (P : Params) (pin seed : Bank Byte) : Mat ℤ :=
  scramble (toMatrix (unsignedSeq seed) (keySeedOffset P pin : ℤ)) (mixSeed P pin) .seed

/-- The product Pr = C' · P (41_key_masking.md R166). -/
def productMatrix (P : Params) (pin : Bank Byte) : Mat ℤ := matMul (tableMatrix P pin) (pinMatrix pin)

/-- The StorageKey SK = toSequence(Pr · K', 0) (41_key_masking.md R166). -/
def storageKey (P : Params) (pin seed : Bank Byte) : Fin 16 → ℤ :=
  toSequence (toRat (matMul (productMatrix P pin) (seedMatrix P pin seed))) 0

/-- The recovered KeySeed: toSequence(unscramble(inv(Pr) · S, mixS, seed), oK) with S = toMatrix(SKEY, 0)
(41_key_masking.md R168, R169). Meant only where det(Pr) is not 0. -/
def recoveredSeed (P : Params) (pin : Bank Byte) (skey : Bank Word) : Fin 16 → ℤ :=
  toSequence
    (unscramble
      (matMul (matInv (toRat (productMatrix P pin))) (toRat (toMatrix (unsignedSeq skey) 0)))
      (mixSeed P pin) .seed)
    (keySeedOffset P pin : ℤ)

/-- Some recovered element is outside 0..255 (41_key_masking.md R171, R173). -/
def outOfByteRange (out : Fin 16 → ℤ) : Bool :=
  (List.finRange 16).any fun i => decide (out i < 0) || decide (255 < out i)

/-! ## Commands -/

/-- What PIN_CHECK does (41_key_masking.md R164): OFFS and the flag PINSING; ERR = OK also for a singular pin. -/
def pinCheckCmd (P : Params) (s : State) : State :=
  { s with offs := offsetsOf P s.pin }.complete .ok { pinsing := pinSingular s.pin }

/-- What MASK does (41_key_masking.md R167): OFFS on both paths, then NOT_INVERTIBLE with PINSING, or SKEY. -/
def maskCmd (P : Params) (s : State) : State :=
  if pinSingular s.pin then
    { s with offs := offsetsOf P s.pin }.complete .notInvertible { pinsing := true }
  else
    { s with offs := offsetsOf P s.pin, skey := truncBank (storageKey P s.pin s.seed) }.complete .ok {}

/-- What UNMASK does (41_key_masking.md R171 to R173): OFFS and PINSING on both paths, then NOT_INVERTIBLE, or SEED_OUT with
SEED_RANGE. -/
def unmaskCmd (P : Params) (s : State) : State :=
  if det4 (productMatrix P s.pin) = 0 then
    { s with offs := offsetsOf P s.pin }.complete .notInvertible { pinsing := pinSingular s.pin }
  else
    { s with offs := offsetsOf P s.pin, seedOut := truncBank (recoveredSeed P s.pin s.skey) }.complete .ok
      { pinsing := pinSingular s.pin, seedRange := outOfByteRange (recoveredSeed P s.pin s.skey) }

/-- PIN_CHECK (41_key_masking.md R164). -/
def execPinCheck (s : State) : Host.Outcome State Fault Refusal := .next (pinCheckCmd Config.hw s)

/-- MASK (41_key_masking.md R167). -/
def execMask (s : State) : Host.Outcome State Fault Refusal := .next (maskCmd Config.hw s)

/-- UNMASK (41_key_masking.md R171). -/
def execUnmask (s : State) : Host.Outcome State Fault Refusal := .next (unmaskCmd Config.hw s)

end Sys2Proof.Machine
end

