-- ==== Sys2Proof/Machine/MatrixScrambler.lean ====
section
/-! DEFINITION. The Matrix Codec and Scrambler commands (40_matrix_scrambler.md R140 to R143). Each completes with ERR = OK
and all result flags 0; none raises an error. -/

namespace Sys2Proof.Machine

/-- MAT_LOAD (40_matrix_scrambler.md R140): `MAT <- toMatrix(VEC, ARG.OFFSET)`. The elements are moved, not computed. -/
def execMatLoad (s : State) : Host.Outcome State Fault Refusal :=
  .next ({ s with mat := matrixBank (toMatrix (bankGet s.vec) s.argOffset) }.complete .ok {})

/-- The bank VEC that MAT_STORE writes: `toSequence(MAT, ARG.OFFSET)` over the integers MAT holds. -/
def storedVec (mat : Bank Word) (offset : Int) : Bank Word :=
  truncBank (toSequence (toRat fun r c => (bankMatrix mat r c).toInt) offset)

/-- MAT_STORE (40_matrix_scrambler.md R141): `VEC <- toSequence(MAT, ARG.OFFSET)`. -/
def execMatStore (s : State) : Host.Outcome State Fault Refusal :=
  .next ({ s with vec := storedVec s.mat s.argOffset }.complete .ok {})

/-- SCRAMBLE (40_matrix_scrambler.md R142): `MAT <- scramble(MAT, ARG.MIX, ARG.MODE)`. -/
def execScramble (s : State) : Host.Outcome State Fault Refusal :=
  .next ({ s with mat := matrixBank (scramble (bankMatrix s.mat) s.argMix s.argMode) }.complete .ok {})

/-- UNSCRAMBLE (40_matrix_scrambler.md R143): `MAT <- unscramble(MAT, ARG.MIX, ARG.MODE)`. -/
def execUnscramble (s : State) : Host.Outcome State Fault Refusal :=
  .next ({ s with mat := matrixBank (unscramble (bankMatrix s.mat) s.argMix s.argMode) }.complete .ok {})

end Sys2Proof.Machine
end

