-- ==== Sys2Proof/Machine/Payload.lean ====
section
/-! DEFINITION. The Payload Embedder and Extractor (43_payload.md): bitstreams, the embedding and extraction loops, and the
commands EMBED and EXTRACT. -/

namespace Sys2Proof.Machine

open Config (Params)

/-! ## Bitstreams -/

/-- MARKER: fifteen 1 bits, then one 0 bit (43_payload.md R230). -/
def marker : List Bool := List.replicate 15 true ++ [false]

/-- The bits of a byte, most significant first (43_payload.md R231). -/
def byteBits (b : Byte) : List Bool :=
  [b.getLsbD 7, b.getLsbD 6, b.getLsbD 5, b.getLsbD 4, b.getLsbD 3, b.getLsbD 2, b.getLsbD 1, b.getLsbD 0]

/-- `bits(b)`: bytes in ascending order, each from its most significant bit down (43_payload.md R231). -/
def bitsOf : List Byte → List Bool
  | [] => []
  | b :: bs => byteBits b ++ bitsOf bs

/-- The byte whose bit 7 is the first of eight bits (43_payload.md R231). -/
def byteOfBits (b7 b6 b5 b4 b3 b2 b1 b0 : Bool) : Byte :=
  BitVec.ofBool b7 ++ BitVec.ofBool b6 ++ BitVec.ofBool b5 ++ BitVec.ofBool b4
    ++ BitVec.ofBool b3 ++ BitVec.ofBool b2 ++ BitVec.ofBool b1 ++ BitVec.ofBool b0

/-- `bytes(s)`: the whole bytes of a bit sequence; a rest of fewer than 8 bits is dropped (43_payload.md R231). -/
def bytesOf : List Bool → List Byte
  | b7 :: b6 :: b5 :: b4 :: b3 :: b2 :: b1 :: b0 :: rest => byteOfBits b7 b6 b5 b4 b3 b2 b1 b0 :: bytesOf rest
  | _ => []

/-- `lastbit(v)` (43_payload.md R233). -/
def lastBit (v : Byte) : Bool := v.getLsbD 0

/-- `setlast(v, x) = (v - (v mod 2)) + x` (43_payload.md R233). -/
def setLast (v : Byte) (x : Bool) : Byte := BitVec.ofNat 8 (v.toNat - v.toNat % 2 + x.toNat)

/-- The message stream Mbits (43_payload.md R232), read with draw number d. -/
def messageStream (d : Nat) (s : State) : List Bool :=
  bitsOf (engineBytes d s.mem msgBase s.msgLen.toNat) ++ marker

/-- The metadata stream Dbits (43_payload.md R232), read with draw number d. -/
def metadataStream (d : Nat) (s : State) : List Bool :=
  bitsOf (engineBytes d s.mem metaBase s.metaLen.toNat) ++ marker

/-- Lm = 8·MSG_LEN + 16 (43_payload.md R232). -/
def State.msgBits (s : State) : Nat := 8 * s.msgLen.toNat + 16

/-- Ld = 8·META_LEN + 16 (43_payload.md R232). -/
def State.metaBits (s : State) : Nat := 8 * s.metaLen.toNat + 16

/-! ## EMBED -/

/-- One channel byte overwritten in its last bit (43_payload.md R233, R236). -/
def embedBit (d : Nat) (m : Memory) (a : Nat) (x : Bool) : Memory :=
  Memory.write m a (setLast (engineByte d m a) x)

/-- The embedding loop (43_payload.md R236) from pixel p on, with at most n pixels left and the bits of the two streams
that are still to come. While the message stream lasts, the blue byte takes a message bit, and the green byte a metadata
bit while that stream lasts. -/
def embedLoop (d : Nat) : Nat → Nat → List Bool → List Bool → Memory → Memory
  | 0, _, _, _, m => m
  | _ + 1, _, [], _, m => m
  | n + 1, p, x :: msg, [], m => embedLoop d n (p + 1) msg [] (embedBit d m (blueAt p) x)
  | n + 1, p, x :: msg, y :: met, m =>
    embedLoop d n (p + 1) msg met (embedBit d (embedBit d m (blueAt p) x) (greenAt p) y)

/-- The flags of EMBED (43_payload.md R234, R237). -/
def embedFlags (s : State) : ResultFlags :=
  { capShort := decide (s.npix.toNat < s.msgBits), metaTrunc := decide (s.msgBits < s.metaBits) }

/-- EMBED's range check fails (43_payload.md R235). -/
abbrev embedOutOfRange (P : Params) (s : State) : Prop :=
  P.pixMax < s.npix.toNat ∨ P.msgMax < s.msgLen.toNat ∨ P.metaMax < s.metaLen.toNat

/-- What EMBED does (43_payload.md R237): the range check first, then under STRICT the capacity check, then the loop over
min(NPIX, Lm) pixels. -/
def embedCmd (P : Params) (s : State) : State :=
  if embedOutOfRange P s then s.complete .range {}
  else if s.strictAtIssue && ((embedFlags s).capShort || (embedFlags s).metaTrunc) then
    { s with xpix := 0 }.complete .capacity (embedFlags s)
  else
    { s with
      mem := embedLoop s.draws s.npix.toNat 0 (messageStream s.draws s) (metadataStream s.draws s) s.mem
      xpix := BitVec.ofNat 32 (min s.npix.toNat s.msgBits)
      draws := s.draws + 1 }.complete .ok (embedFlags s)

/-! ## EXTRACT -/

/-- The accumulators of the extraction loop (43_payload.md R238): `acc_m`, `acc_d`, `mfound`, `dfound` and the number of
pixels read. -/
structure Extraction where
  msg : List Bool := []
  met : List Bool := []
  msgFound : Bool := false
  metFound : Bool := false
  pixels : Nat := 0
deriving DecidableEq, Repr

/-- The accumulator has at least 16 bits and its last 16 are MARKER (43_payload.md R238). -/
def endsInMarker (acc : List Bool) : Bool :=
  decide (16 ≤ acc.length) && decide (acc.drop (acc.length - 16) = marker)

/-- One pixel of the extraction loop: the green bit first, then the blue bit (43_payload.md R238). -/
def extractPixel (green blue : Bool) (e : Extraction) : Extraction :=
  let met := if e.metFound then e.met else e.met ++ [green]
  let msg := e.msg ++ [blue]
  { msg := msg
    met := met
    msgFound := endsInMarker msg
    metFound := e.metFound || endsInMarker met
    pixels := e.pixels + 1 }

/-- The extraction loop (43_payload.md R238) with at most n pixels left; it stops when the message marker is found. -/
def extractLoop (green blue : Nat → Bool) : Nat → Extraction → Extraction
  | 0, e => e
  | n + 1, e =>
    if e.msgFound then e
    else extractLoop green blue n (extractPixel (green e.pixels) (blue e.pixels) e)

/-- The loop over the pixels of PIXMEM, read with draw number d. -/
def extraction (d : Nat) (s : State) : Extraction :=
  extractLoop (fun p => lastBit (engineByte d s.mem (greenAt p))) (fun p => lastBit (engineByte d s.mem (blueAt p)))
    s.npix.toNat {}

/-- An accumulator without its marker, where it was found (43_payload.md R239). -/
def withoutMarker (found : Bool) (acc : List Bool) : List Bool :=
  if found then acc.take (acc.length - 16) else acc

/-- mbits (43_payload.md R239). -/
def Extraction.msgBits (e : Extraction) : List Bool := withoutMarker e.msgFound e.msg

/-- dbits (43_payload.md R239). -/
def Extraction.metBits (e : Extraction) : List Bool := withoutMarker e.metFound e.met

/-- The flags of EXTRACT (43_payload.md R240). -/
def Extraction.flags (e : Extraction) : ResultFlags :=
  { msgNf := !e.msgFound
    metaNf := !e.metFound
    msgAlign := decide (e.msgBits.length % 8 ≠ 0)
    metaAlign := decide (e.metBits.length % 8 ≠ 0) }

/-- ERR of EXTRACT (43_payload.md R240): an ALIGN flag alone is no error. -/
def Extraction.error (e : Extraction) : ErrorCode := if e.msgFound && e.metFound then .ok else .capacity

/-- The outputs of EXTRACT written (43_payload.md R239). -/
def writeExtraction (s : State) (e : Extraction) : State :=
  { s with
    mem := Memory.writeList (Memory.writeList s.mem msgBase (bytesOf e.msgBits)) metaBase (bytesOf e.metBits)
    xmsgLen := BitVec.ofNat 32 (e.msgBits.length / 8)
    xmetaLen := BitVec.ofNat 32 (e.metBits.length / 8)
    xpix := BitVec.ofNat 32 e.pixels
    draws := s.draws + 1 }

/-- What EXTRACT does (43_payload.md R241): the range check, the loop, the outputs, on CAPACITY too. -/
def extractCmd (P : Params) (s : State) : State :=
  if P.pixMax < s.npix.toNat then s.complete .range {}
  else (writeExtraction s (extraction s.draws s)).complete (extraction s.draws s).error (extraction s.draws s).flags

/-- EMBED (43_payload.md R237). -/
def execEmbed (s : State) : Host.Outcome State Fault Refusal := .next (embedCmd Config.hw s)

/-- EXTRACT (43_payload.md R241). -/
def execExtract (s : State) : Host.Outcome State Fault Refusal := .next (extractCmd Config.hw s)

end Sys2Proof.Machine
end

