-- ==== Sys2Proof/Machine/Dispatch.lean ====
section
/-! DEFINITION. The dispatch: the commit and completion of each command (44_control.md R273, R274), one arm per command. -/

namespace Sys2Proof.Machine

def exec (i : Instr) (s : State) : Host.Outcome State Fault Refusal :=
  match i with
  | .nop => Sys2Proof.Machine.execNop s
  | .matLoad => Sys2Proof.Machine.execMatLoad s
  | .matStore => Sys2Proof.Machine.execMatStore s
  | .scramble => Sys2Proof.Machine.execScramble s
  | .unscramble => Sys2Proof.Machine.execUnscramble s
  | .pinCheck => Sys2Proof.Machine.execPinCheck s
  | .mask => Sys2Proof.Machine.execMask s
  | .unmask => Sys2Proof.Machine.execUnmask s
  | .encCh => Sys2Proof.Machine.execEncCh s
  | .decCh => Sys2Proof.Machine.execDecCh s
  | .encPix => Sys2Proof.Machine.execEncPix s
  | .decPix => Sys2Proof.Machine.execDecPix s
  | .embed => Sys2Proof.Machine.execEmbed s
  | .extract => Sys2Proof.Machine.execExtract s

end Sys2Proof.Machine
end

