-- ==== Sys2Proof/Machine/AddressMap.lean ====
section
/-! DEFINITION. The address map (20_memory.md R70): which register or buffer bytes an access reaches, which accesses are
admissible (R72, R73, R75), and what each register reads as and stores (10_state.md R21 to R32, R25). -/

namespace Sys2Proof.Machine

open Config (Params)

/-- The registers by name (10_state.md R22 to R32, R25). -/
inductive RegName where
  | id | ctrl | status | cmd | arg | offs
  | npix | msgLen | metaLen | xmsgLen | xmetaLen | xpix
  | chVal | chPat | pixR | pixG | pixB | pixPatLo | pixPatHi
  | pin (i : Fin 16)
  | seed (i : Fin 16)
  | skey (i : Fin 16)
  | seedOut (i : Fin 16)
  | vec (i : Fin 16)
  | mat (r c : Fin 4)
deriving DecidableEq, Repr

/-- The register's byte offset from BASE (10_state.md R22 to R32, R25). -/
def RegName.offset : RegName → Nat
  | .id => 0x000
  | .ctrl => 0x008
  | .status => 0x010
  | .cmd => 0x018
  | .arg => 0x020
  | .offs => 0x028
  | .npix => 0x030
  | .msgLen => 0x038
  | .metaLen => 0x040
  | .xmsgLen => 0x048
  | .xmetaLen => 0x050
  | .xpix => 0x058
  | .chVal => 0x060
  | .chPat => 0x068
  | .pixR => 0x070
  | .pixG => 0x078
  | .pixB => 0x080
  | .pixPatLo => 0x088
  | .pixPatHi => 0x090
  | .pin i => 0x100 + 8 * i.val
  | .seed i => 0x180 + 8 * i.val
  | .skey i => 0x200 + 8 * i.val
  | .seedOut i => 0x280 + 8 * i.val
  | .vec i => 0x300 + 8 * i.val
  | .mat r c => 0x380 + 8 * (4 * r.val + c.val)

/-- The control register at an offset below 0x100; offsets 0x098 to 0x0F8 are a hole (20_memory.md R70). -/
def controlRegAt (off : Nat) : Option RegName :=
  match off with
  | 0x000 => some .id
  | 0x008 => some .ctrl
  | 0x010 => some .status
  | 0x018 => some .cmd
  | 0x020 => some .arg
  | 0x028 => some .offs
  | 0x030 => some .npix
  | 0x038 => some .msgLen
  | 0x040 => some .metaLen
  | 0x048 => some .xmsgLen
  | 0x050 => some .xmetaLen
  | 0x058 => some .xpix
  | 0x060 => some .chVal
  | 0x068 => some .chPat
  | 0x070 => some .pixR
  | 0x078 => some .pixG
  | 0x080 => some .pixB
  | 0x088 => some .pixPatLo
  | 0x090 => some .pixPatHi
  | _ => none

/-- The bank element of the given bank number (offset div 0x80) and index (10_state.md R25). -/
def bankAt (bank : Nat) (i : Fin 16) : Option RegName :=
  match bank with
  | 2 => some (.pin i)
  | 3 => some (.seed i)
  | 4 => some (.skey i)
  | 5 => some (.seedOut i)
  | 6 => some (.vec i)
  | 7 => some (.mat (rowOf i) (colOf i))
  | _ => none

/-- The register that an offset names (10_state.md R22 to R32, R25), for an offset that is a multiple of 8. -/
def regAt (off : Nat) : Option RegName :=
  if off < 0x100 then controlRegAt off
  else if off % 8 = 0 then bankAt (off / 0x80) ⟨off / 8 % 16, by omega⟩
  else none

/-- The three buffers (10_state.md R34). -/
inductive Buffer where
  | pixmem
  | msgbuf
  | metabuf
deriving DecidableEq, Repr

/-- The window offset of a buffer's byte 0 (20_memory.md R70). -/
def Buffer.base : Buffer → Nat
  | .pixmem => pixBase
  | .msgbuf => msgBase
  | .metabuf => metaBase

/-- A buffer's size in bytes (10_state.md R34). -/
def Buffer.size (P : Params) : Buffer → Nat
  | .pixmem => 4 * P.pixMax
  | .msgbuf => P.msgMax
  | .metabuf => P.metaMax

/-- The n bytes from window offset a lie wholly inside the buffer (20_memory.md R75). -/
def Buffer.holds (P : Params) (b : Buffer) (a n : Nat) : Bool :=
  decide (b.base ≤ a) && decide (a + n ≤ b.base + b.size P)

/-- The n bytes from window offset a lie wholly inside one buffer. -/
def inSomeBuffer (P : Params) (a n : Nat) : Bool :=
  Buffer.holds P .pixmem a n || Buffer.holds P .msgbuf a n || Buffer.holds P .metabuf a n

/-- What an admissible access reaches. -/
inductive Target where
  /-- One register, with all its 64 bits (20_memory.md R72). -/
  | reg (r : RegName)
  /-- The n buffer bytes from window offset a (20_memory.md R75). -/
  | bytes (a n : Nat)
deriving DecidableEq, Repr

/-- The target of an access of `width` bytes at window offset a; `none` is an inadmissible access (20_memory.md R72, R73, R75):
a width other than 1, 2, 4, 8, a misaligned offset, a register access that is not 64 bits wide or names no register, a
hole, or the end of a buffer crossed. -/
def accessTarget (P : Params) (a width : Nat) : Option Target :=
  if width ≠ 1 ∧ width ≠ 2 ∧ width ≠ 4 ∧ width ≠ 8 then none
  else if a % width ≠ 0 then none
  else if a < 0x400 then
    if width = 8 then
      match regAt a with
      | some r => some (.reg r)
      | none => none
    else none
  else if inSomeBuffer P a width then some (.bytes a width)
  else none

/-- ID reads this constant (10_state.md R22). -/
def idValue : Word := 0x000000074B4D5300

/-- What a 64-bit read of a register returns (10_state.md R21 to R32, R25): its fields in place and 0 in every reserved bit. -/
def readReg (s : State) : RegName → Word
  | .id => idValue
  | .ctrl => (0 : BitVec 61) ++ bit s.strict ++ (0 : BitVec 1) ++ bit s.ie
  | .status => s.status
  | .cmd => s.cmd
  | .arg => (0 : BitVec 47) ++ bit s.arg.mode ++ (0 : BitVec 6) ++ s.arg.mix ++ (0 : BitVec 4) ++ s.arg.offset
  | .offs => (0 : BitVec 34) ++ s.offs.mixt ++ (0 : BitVec 2) ++ s.offs.mixs ++ (0 : BitVec 4) ++ s.offs.ot
      ++ (0 : BitVec 4) ++ s.offs.ok ++ (0 : BitVec 4) ++ s.offs.op
  | .npix => s.npix.setWidth 64
  | .msgLen => s.msgLen.setWidth 64
  | .metaLen => s.metaLen.setWidth 64
  | .xmsgLen => s.xmsgLen.setWidth 64
  | .xmetaLen => s.xmetaLen.setWidth 64
  | .xpix => s.xpix.setWidth 64
  | .chVal => s.chVal.setWidth 64
  | .chPat => s.chPat.setWidth 64
  | .pixR => s.pixR.setWidth 64
  | .pixG => s.pixG.setWidth 64
  | .pixB => s.pixB.setWidth 64
  | .pixPatLo => s.pixPatLo
  | .pixPatHi => s.pixPatHi.setWidth 64
  | .pin i => (bankGet s.pin i).setWidth 64
  | .seed i => (bankGet s.seed i).setWidth 64
  | .skey i => bankGet s.skey i
  | .seedOut i => bankGet s.seedOut i
  | .vec i => bankGet s.vec i
  | .mat r c => bankGet s.mat (flatIndex r c)

/-- A host write of v to the fields of a register other than CTRL, STATUS and CMD, which have rules of their own: reserved
bits and read-only registers ignore it (10_state.md R21). -/
def storeReg (s : State) (v : Word) : RegName → State
  | .arg => { s with arg := ⟨v.extractLsb' 0 4, v.extractLsb' 8 2, v.getLsbD 16⟩ }
  | .npix => { s with npix := v.extractLsb' 0 32 }
  | .msgLen => { s with msgLen := v.extractLsb' 0 32 }
  | .metaLen => { s with metaLen := v.extractLsb' 0 32 }
  | .chVal => { s with chVal := v.extractLsb' 0 10 }
  | .chPat => { s with chPat := v.extractLsb' 0 24 }
  | .pixR => { s with pixR := v.extractLsb' 0 10 }
  | .pixG => { s with pixG := v.extractLsb' 0 10 }
  | .pixB => { s with pixB := v.extractLsb' 0 10 }
  | .pixPatLo => { s with pixPatLo := v }
  | .pixPatHi => { s with pixPatHi := v.extractLsb' 0 8 }
  | .pin i => { s with pin := bankSet s.pin i (v.extractLsb' 0 8) }
  | .seed i => { s with seed := bankSet s.seed i (v.extractLsb' 0 8) }
  | .skey i => { s with skey := bankSet s.skey i v }
  | .vec i => { s with vec := bankSet s.vec i v }
  | .mat r c => { s with mat := bankSet s.mat (flatIndex r c) v }
  | .id => s
  | .offs => s
  | .xmsgLen => s
  | .xmetaLen => s
  | .xpix => s
  | .seedOut _ => s
  | .ctrl => s
  | .status => s
  | .cmd => s

/-! ## What the command in flight writes -/

/-- The registers that a command writes on success, STATUS apart (10_state.md R38). -/
def commandWritesReg (i : Instr) (r : RegName) : Bool :=
  match i, r with
  | .matLoad, .mat _ _ => true
  | .matStore, .vec _ => true
  | .scramble, .mat _ _ => true
  | .unscramble, .mat _ _ => true
  | .pinCheck, .offs => true
  | .mask, .skey _ => true
  | .mask, .offs => true
  | .unmask, .seedOut _ => true
  | .unmask, .offs => true
  | .encCh, .chPat => true
  | .decCh, .chVal => true
  | .encPix, .pixPatLo => true
  | .encPix, .pixPatHi => true
  | .decPix, .pixR => true
  | .decPix, .pixG => true
  | .decPix, .pixB => true
  | .embed, .xpix => true
  | .extract, .xmsgLen => true
  | .extract, .xmetaLen => true
  | .extract, .xpix => true
  | _, _ => false

/-- The buffer bytes that EMBED could write: the green and blue bytes of the pixels p < min(NPIX, 8·MSG_LEN + 16)
(70_reset_and_hazards.md R322). -/
def embedCouldWrite (P : Params) (s : State) (a : Nat) : Bool :=
  Buffer.holds P .pixmem a 1
    && decide ((a - pixBase) / 4 < min s.npix.toNat (8 * s.msgLen.toNat + 16))
    && (decide ((a - pixBase) % 4 = 1) || decide ((a - pixBase) % 4 = 2))

/-- The buffer bytes that EXTRACT could write: MSGBUF and METABUF bytes 0 .. floor(NPIX/8) - 1
(70_reset_and_hazards.md R322). -/
def extractCouldWrite (P : Params) (s : State) (a : Nat) : Bool :=
  (Buffer.holds P .msgbuf a 1 && decide (a - msgBase < s.npix.toNat / 8))
    || (Buffer.holds P .metabuf a 1 && decide (a - metaBase < s.npix.toNat / 8))

/-- The legal command in flight, if there is one. -/
def State.inFlightInstr (s : State) : Option Instr :=
  match s.inFlight with
  | none => none
  | some w =>
    match decode w with
    | .ok i => some i
    | .error _ => none

/-- The command in flight writes this register (70_reset_and_hazards.md R327, 10_state.md R38). -/
def inFlightWritesReg (s : State) (r : RegName) : Bool :=
  match s.inFlightInstr with
  | none => false
  | some i => commandWritesReg i r

/-- The command in flight could write the byte at window offset a (70_reset_and_hazards.md R322, R327). -/
def inFlightWritesByte (P : Params) (s : State) (a : Nat) : Bool :=
  match s.inFlightInstr with
  | some .embed => embedCouldWrite P s a
  | some .extract => extractCouldWrite P s a
  | _ => false

end Sys2Proof.Machine
end

