-- ==== Sys2Proof/Machine/HostBus.lean ====
section
/-! DEFINITION. The host's side of a step: bus reads and writes, soft reset, power-on reset and the `wait` loop
(20_memory.md R72 to R77, 44_control.md R270, R271, R277, 70_reset_and_hazards.md R320 to R327). -/

namespace Sys2Proof.Machine

open Config (Params)

/-! ## Soft reset -/

/-- The buffers after a soft reset (70_reset_and_hazards.md R322): where it aborts EMBED or EXTRACT, each byte that the command
could have written holds its old value or the one that the completion would have written, a free choice per byte; no
other byte changes. -/
def abortedMemory (P : Params) (s : State) : Memory :=
  match s.inFlightInstr with
  | some .embed =>
    Memory.select (fun a => embedCouldWrite P s a && Config.abortTakesNew s.draws a) s.mem (embedCmd P s).mem
  | some .extract =>
    Memory.select (fun a => extractCouldWrite P s a && Config.abortTakesNew s.draws a) s.mem (extractCmd P s).mem
  | _ => s.mem

/-- Soft reset (44_control.md R277): every register at its reset value, the phase Idle, the buffers as R322 says. -/
def softReset (P : Params) (s : State) : State := s.resetOver (abortedMemory P s)

/-! ## Reads -/

/-- One buffer byte as a host read sees it: unspecified where the command in flight writes it (70_reset_and_hazards.md R327),
a free value where nothing has written it (R321), else what it holds. -/
def hostByte (P : Params) (s : State) (a : Nat) : Byte :=
  if inFlightWritesByte P s a then Config.busyReadByte s.draws a
  else match Memory.read? s.mem a with
    | some v => v
    | none => Config.unwrittenByte s.draws a

/-- The value a host read returns (20_memory.md R72 to R75, 70_reset_and_hazards.md R327); an inadmissible read returns 0. -/
def readValue (P : Params) (s : State) : Option Target → Word
  | none => 0
  | some (.reg r) => if inFlightWritesReg s r then Config.busyReadWord s.draws else readReg s r
  | some (.bytes a n) => ofLittleBytes ((List.range n).map fun k => hostByte P s (a + k))

/-- A host read of `width` bytes at window offset a: no side effect (20_memory.md R77) but ACCERR where it is inadmissible (R73). -/
def hostRead (P : Params) (s : State) (a width : Nat) : State :=
  match accessTarget P a width with
  | none => { s.setAccErr with rdata := 0 }
  | some t => { s with rdata := readValue P s (some t) }

/-! ## Writes -/

/-- A host write to CTRL, Idle or Busy (10_state.md R23, 44_control.md R277, 70_reset_and_hazards.md R326): with SRST = 1 a soft
reset, and the other bits of the write are discarded; else IE and STRICT. -/
def writeCtrl (P : Params) (s : State) (v : Word) : State :=
  if v.getLsbD 1 then softReset P s
  else { s with ie := v.getLsbD 0, strict := v.getLsbD 2 }

/-- A host write to STATUS, Idle or Busy (10_state.md R24, 70_reset_and_hazards.md R326): only DONE, ACCERR and BUSYWR respond,
each cleared by a 1. -/
def writeStatus (s : State) (v : Word) : State :=
  { s with
    done := s.done && !v.getLsbD 1
    accerr := s.accerr && !v.getLsbD 30
    busywr := s.busywr && !v.getLsbD 31 }

/-- A host write of v to a register: CTRL and STATUS as usual at any time; any other is dropped while Busy and sets BUSYWR
(70_reset_and_hazards.md R326; read-only registers too, log 13); a write to CMD while Idle issues the command
(44_control.md R271). -/
def writeReg (P : Params) (s : State) (v : Word) (r : RegName) : State :=
  match r with
  | .ctrl => writeCtrl P s v
  | .status => writeStatus s v
  | .cmd => if s.busy then s.setBusyWr else s.issue v
  | r => if s.busy then s.setBusyWr else storeReg s v r

/-- A host write of the low `width` bytes of v at window offset a (20_memory.md R72 to R75): an inadmissible one changes nothing
and sets ACCERR; one to a buffer while Busy is dropped and sets BUSYWR (70_reset_and_hazards.md R326). -/
def hostWrite (P : Params) (s : State) (a width : Nat) (v : Word) : State :=
  match accessTarget P a width with
  | none => s.setAccErr
  | some (.reg r) => writeReg P s v r
  | some (.bytes a n) =>
    if s.busy then s.setBusyWr else { s with mem := Memory.writeList s.mem a (littleBytes n v) }

/-! ## One host step -/

/-- One host operation. `wait` is one read of STATUS that stays the host's next operation while BUSY reads 1
(30_encoding.md R107). -/
def hostOp (P : Params) (s : State) : HostOp → State
  | .read a width => hostRead P s a.toNat width
  | .write a width v => hostWrite P s a.toNat width v
  | .wait =>
    if s.busy then { hostRead P s RegName.status.offset 8 with host := .wait :: s.host }
    else hostRead P s RegName.status.offset 8
  | .powerOn => s.powerOnReset

/-- One host step (44_control.md R270): the host's first operation is performed. It counts against the latency of a command in
flight (R272) and uses up one draw index. With nothing left to do nothing changes. -/
def hostStep (P : Params) (s : State) : State :=
  match s.host with
  | [] => s
  | op :: rest =>
    { hostOp P { s with host := rest, latency := s.latency - 1 } op with draws := s.draws + 1 }

/-- The window offset of a bus address (20_memory.md R70): `none` where the address is outside the window, which belongs to the
platform and never reaches the block (log 11). -/
def windowOffset (P : Params) (addr : Nat) : Option (BitVec 22) :=
  if P.base ≤ addr ∧ addr < P.base + 0x400000 then some (BitVec.ofNat 22 (addr - P.base)) else none

end Sys2Proof.Machine
end

