-- ==== Sys2Proof/Machine/Sequencer.lean ====
section
/-! DEFINITION. Which agent moves next and what its move is (44_control.md R270, R272): one step of the machine is one host
operation or the completion of the command in flight. -/

namespace Sys2Proof.Machine

/-- The engine moves next: a command is in flight, and the host has taken the steps that the latency draw allows it or has
nothing left to do (44_control.md R272; log 4). -/
def engineTurn (s : State) : Bool := s.busy && (decide (s.latency = 0) || s.host.isEmpty)

/-- One engine step: the completion of the command in flight (44_control.md R273 to R275). -/
def engineStep (s : State) : Host.Outcome State Fault Refusal :=
  match s.inFlight with
  | none => .next s
  | some w =>
    match decode w with
    | .ok i => exec i s
    | .error _ => .next (completeIllegal s)

/-- One step of the machine. -/
def nextStep (s : State) : Host.Outcome State Fault Refusal :=
  if engineTurn s then engineStep s else .next (hostStep Config.hw s)

/-- The state right after the host has issued the word w, with the engine to move next: what an issue does (44_control.md R271),
with latency 0 as its draw (log 2). -/
def placeCommand (s : State) (w : Word) : State :=
  { s with cmd := w, done := false, phase := .busy w s.strict, latency := 0 }

end Sys2Proof.Machine
end

