-- ==== Sys2Proof/Machine/Step.lean ====
section
/-! DEFINITION. The step function. The block fetches nothing (10_state.md R33): the command in flight is the word of the
engine phase, and `withFetchWord` puts a command there. -/

namespace Sys2Proof.Machine

/-- One step: one host operation, or the completion of the command in flight (44_control.md R270). -/
def step (s : State) : Host.Outcome State Fault Refusal := nextStep s

/-- The state in which the very next step runs the given command word: the state right after its issue (log 2). -/
def State.withFetchWord (s : State) (nbits w : Nat) : State := placeCommand s (fetchWord nbits w)

end Sys2Proof.Machine
end

