-- ==== Sys2Proof/Safety.lean ====
section
/-! DEFINITION. What holds of every state that the machine can be in: the invariant that claims about all steps use, and a run
that never stops. -/

namespace Sys2Proof.Machine

open Config (Params)

/-- The memory is in its canonical form and lists only bytes of the three buffers (10_state.md R34, 20_memory.md R70). -/
structure MemoryInv (P : Params) (m : Memory) : Prop where
  canonical : Memory.wf m = true
  inBuffers : ∀ c ∈ m, inSomeBuffer P c.1 1 = true

/-- OFFS holds mix indices that belong to its offsets (10_state.md R28: MIXS = (OP + OT) mod 4, MIXT = (OP + OT) mod 3). -/
structure OffsInv (o : OffsFields) : Prop where
  mixs : o.mixs.toNat = (o.op.toNat + o.ot.toNat) % 4
  mixt : o.mixt.toNat = (o.op.toNat + o.ot.toNat) % 3

/-- The counts of the last EMBED or EXTRACT fit their buffers (43_payload.md R239). -/
structure CountInv (P : Params) (s : State) : Prop where
  xpix : s.xpix.toNat ≤ P.pixMax
  xmsg : 8 * s.xmsgLen.toNat ≤ P.pixMax
  xmeta : 8 * s.xmetaLen.toNat ≤ P.pixMax

/-- While a command is in flight, CMD holds its word and DONE is 0 (44_control.md R271, 70_reset_and_hazards.md R327). -/
def PhaseInv (s : State) : Prop :=
  ∀ w st, s.phase = .busy w st → s.cmd = w ∧ s.done = false

/-- The invariant of the machine. -/
structure State.Inv (P : Params) (s : State) : Prop where
  memory : MemoryInv P s.mem
  offs : OffsInv s.offs
  counts : CountInv P s
  phase : PhaseInv s

/-- A run that never stops: every step of it answers a next state (60_exceptions.md R298: the block has no trap). -/
def NeverStops (s : State) : Prop := ∀ n : Nat, ∃ t, Sys2Proof.core.run n s = .next t

end Sys2Proof.Machine
end

