-- ==== Sys2Proof/Machine/HostScript.lean ====
section
/-! DEFINITION. The host's command syntax (30_encoding.md R106, R107) as data: every line is one bus access, every
pseudo-instruction a list of host operations. A number's width is its type; `Sys2Proof/WellFormed.lean` says which lines
are well formed. -/

namespace Sys2Proof.Machine

/-- A line of a host script (30_encoding.md R106). -/
inductive ScriptLine where
  /-- `wr REG, imm`. -/
  | wr (r : RegName) (imm : Word)
  /-- `rd REG`. -/
  | rd (r : RegName)
  /-- `wrb BUF, addr, imm`. -/
  | wrb (b : Buffer) (addr : Nat) (imm : Byte)
  /-- `rdb BUF, addr`. -/
  | rdb (b : Buffer) (addr : Nat)
  /-- `wrw BUF, addr, imm`. -/
  | wrw (b : Buffer) (addr : Nat) (imm : BitVec 32)
  /-- `rdw BUF, addr`. -/
  | rdw (b : Buffer) (addr : Nat)
  /-- `cmd MNEMONIC`. -/
  | cmd (i : Instr)
deriving DecidableEq, Repr

/-- A window offset as a bus offset. -/
def busOffset (a : Nat) : BitVec 22 := BitVec.ofNat 22 a

/-- The one bus access of a line (30_encoding.md R106). -/
def ScriptLine.access : ScriptLine → HostOp
  | .wr r imm => .write (busOffset r.offset) 8 imm
  | .rd r => .read (busOffset r.offset) 8
  | .wrb b addr imm => .write (busOffset (b.base + addr)) 1 (imm.setWidth 64)
  | .rdb b addr => .read (busOffset (b.base + addr)) 1
  | .wrw b addr imm => .write (busOffset (b.base + addr)) 4 (imm.setWidth 64)
  | .rdw b addr => .read (busOffset (b.base + addr)) 4
  | .cmd i => .write (busOffset RegName.cmd.offset) 8 (encode i)

/-- The pseudo-instructions (30_encoding.md R107). -/
inductive Pseudo where
  /-- `wait`. -/
  | wait
  /-- `run MNEMONIC`. -/
  | run (i : Instr)
  /-- `ack`. -/
  | ack
  /-- `ldpin "s"`. -/
  | ldpin (text : List Char)
  /-- `ldseed a0,…,a15`. -/
  | ldseed (a : Fin 16 → Word)
  /-- `ldvec a0,…,a15`. -/
  | ldvec (a : Fin 16 → Word)
  /-- `ldbuf BUF, "bytes"`. -/
  | ldbuf (b : Buffer) (bytes : List Byte)
  /-- `arg off, mix, mode`. -/
  | arg (off mix mode : Nat)

/-- The code of the text's character i (30_encoding.md R107: character codes are code points). -/
def charCode (text : List Char) (i : Nat) : Nat :=
  match text[i]? with
  | some c => c.toNat
  | none => 0

/-- One access for each byte of a run, from byte k of the buffer on (30_encoding.md R107, `ldbuf`). -/
def bufferWrites (b : Buffer) : Nat → List Byte → List HostOp
  | _, [] => []
  | k, v :: vs => (ScriptLine.wrb b k v).access :: bufferWrites b (k + 1) vs

/-- The expansion of a pseudo-instruction (30_encoding.md R107). -/
def Pseudo.expand : Pseudo → List HostOp
  | .wait => [.wait]
  | .run i => [(ScriptLine.cmd i).access, .wait]
  | .ack => [(ScriptLine.wr .status 0x2).access]
  | .ldpin text => (List.finRange 16).map fun i => (ScriptLine.wr (.pin i) (BitVec.ofNat 64 (charCode text i.val))).access
  | .ldseed a => (List.finRange 16).map fun i => (ScriptLine.wr (.seed i) (a i)).access
  | .ldvec a => (List.finRange 16).map fun i => (ScriptLine.wr (.vec i) (a i)).access
  | .ldbuf b bytes => bufferWrites b 0 bytes
  | .arg off mix mode => [(ScriptLine.wr .arg (BitVec.ofNat 64 (off + mix * 256 + mode * 65536))).access]

end Sys2Proof.Machine
end

