-- ==== Sys2Proof/WellFormed.lean ====
section
/-! DEFINITION. Which terms are well formed. A command carries no operand and no immediate (30_encoding.md R102), so every
`Instr` is well formed; what can be ill formed is a command word (R100, R104), a line of a host script (R106), a
pseudo-instruction (R107) and a parameter set (00_scope.md R7: `Config.Params.wf`). -/

namespace Sys2Proof

/-- A command: no field to check (30_encoding.md R102). -/
def Instr.wf : Instr → Bool
  | .nop | .matLoad | .matStore | .scramble | .unscramble | .pinCheck | .mask | .unmask
  | .encCh | .decCh | .encPix | .decPix | .embed | .extract => true

/-- A legal command word: RSVD is 0 and OPCODE is assigned (30_encoding.md R100, R104). -/
def wordLegal (w : Word) : Bool := decide (rsvdField w = 0) && (decodeOpcode (opcodeField w)).isSome

namespace Machine

/-- A line names bytes of its buffer, and a 32-bit word of it at a multiple of 4 (30_encoding.md R106). -/
def ScriptLine.wf (P : Config.Params) : ScriptLine → Bool
  | .wr _ _ => true
  | .rd _ => true
  | .wrb b addr _ => decide (addr < b.size P)
  | .rdb b addr => decide (addr < b.size P)
  | .wrw b addr _ => decide (addr % 4 = 0) && decide (addr + 4 ≤ b.size P)
  | .rdw b addr => decide (addr % 4 = 0) && decide (addr + 4 ≤ b.size P)
  | .cmd i => i.wf

/-- A pin text has sixteen characters with codes in 0..255; a run of bytes fits its buffer; the value of `arg` fits the 64
bits of its write (30_encoding.md R106, R107). Nothing bounds the parts of `arg` one by one, nor `ldseed`: a register
keeps its named fields of whatever it is sent (10_state.md R21). -/
def Pseudo.wf (P : Config.Params) : Pseudo → Bool
  | .wait => true
  | .run i => i.wf
  | .ack => true
  | .ldpin text => decide (text.length = 16) && text.all fun c => decide (c.toNat ≤ 255)
  | .ldseed _ => true
  | .ldvec _ => true
  | .ldbuf b bytes => decide (bytes.length ≤ b.size P)
  | .arg off mix mode => decide (off + mix * 256 + mode * 65536 < 2 ^ 64)

end Machine

end Sys2Proof
end

