-- ==== Sys2Proof/Certificates/Slice0/Obligations.lean ====
section
/-! DEFINITION. The statements for the provers, each `def Obligations.<Name> : Prop`, and the terms of the spec they are written
in (namespace Sys2Proof.Claims), which do not mention the functions they make claims about. -/

namespace Sys2Proof.Claims

open Sys2Proof.Machine
open Config (Params)

/-! ## Terms of the spec -/

/-- The fourteen legal command words (30_encoding.md R103). -/
def legalWords : List (Word × Instr) :=
  [(0x00, .nop), (0x01, .matLoad), (0x02, .matStore), (0x03, .scramble), (0x04, .unscramble), (0x10, .pinCheck),
   (0x11, .mask), (0x12, .unmask), (0x20, .encCh), (0x21, .decCh), (0x22, .encPix), (0x23, .decPix),
   (0x30, .embed), (0x31, .extract)]

/-- The permutations of 40_matrix_scrambler.md R137's table. -/
def scramblePi : Mode → Fin 4 → Fin 4 → Fin 4
  | .seed, 0 => ![2, 1, 3, 0]
  | .seed, 1 => ![3, 0, 2, 1]
  | .seed, 2 => ![1, 2, 0, 3]
  | .seed, 3 => ![2, 1, 3, 0]
  | .prime, 0 => ![0, 1, 2, 3]
  | .prime, 1 => ![3, 0, 2, 1]
  | .prime, 2 => ![1, 2, 0, 3]
  | .prime, 3 => ![2, 1, 3, 0]

/-- The permutation that the fields of ARG select (30_encoding.md R102). -/
def argPi (s : State) : Fin 4 → Fin 4 :=
  scramblePi (if s.arg.mode then .prime else .seed) ⟨s.arg.mix.toNat, s.arg.mix.isLt⟩

/-- Σp (41_key_masking.md R160). -/
def pinTotal (pin : Bank Byte) : Nat := ∑ i : Fin 16, (bankGet pin i).toNat

/-- ((Σp + c) div 16) mod 16 (41_key_masking.md R160). -/
def offset (pin : Bank Byte) (c : Nat) : Nat := (pinTotal pin + c) / 16 % 16

/-- oT (41_key_masking.md R161). -/
def oT (pin : Bank Byte) : Nat := offset pin Config.hw.tableOfsConst

/-- oK (41_key_masking.md R161). -/
def oK (pin : Bank Byte) : Nat := offset pin Config.hw.seedOfsConst

/-- mixS (41_key_masking.md R161). -/
def mixS (pin : Bank Byte) : Fin 4 := ⟨(offset pin 0 + oT pin) % 4, by omega⟩

/-- mixT (41_key_masking.md R161). -/
def mixT (pin : Bank Byte) : Fin 4 := ⟨(offset pin 0 + oT pin) % 3, by omega⟩

/-- OFFS holds the packed offsets of this pin (41_key_masking.md R161, 10_state.md R28). -/
def HoldsOffsets (pin : Bank Byte) (o : OffsFields) : Prop :=
  o.op.toNat = offset pin 0 ∧ o.ok.toNat = oK pin ∧ o.ot.toNat = oT pin
    ∧ o.mixs.toNat = (mixS pin).val ∧ o.mixt.toNat = (mixT pin).val

/-- P (41_key_masking.md R162): row r, column c holds PIN[(oP + 4r + c) mod 16]. -/
def matP (pin : Bank Byte) : Matrix (Fin 4) (Fin 4) ℤ :=
  Matrix.of fun r c => ((bankGet pin (Fin.ofNat 16 (offset pin 0 + 4 * r.val + c.val))).toNat : ℤ)

/-- C' (41_key_masking.md R163): toMatrix(CONST_TABLE, oT) with rows and columns permuted for mixT in prime mode. -/
def matC (pin : Bank Byte) : Matrix (Fin 4) (Fin 4) ℤ :=
  Matrix.of fun r c =>
    ((bankGet Config.hw.constTable (Fin.ofNat 16
      (oT pin + 4 * (scramblePi .prime (mixT pin) r).val + (scramblePi .prime (mixT pin) c).val)) : ℕ) : ℤ)

/-- K' (41_key_masking.md R165): toMatrix(SEED, oK) with rows and columns permuted for mixS in seed mode. -/
def matK (pin seed : Bank Byte) : Matrix (Fin 4) (Fin 4) ℤ :=
  Matrix.of fun r c =>
    ((bankGet seed (Fin.ofNat 16
      (oK pin + 4 * (scramblePi .seed (mixS pin) r).val + (scramblePi .seed (mixS pin) c).val))).toNat : ℤ)

/-- S = toMatrix(SKEY, 0) (41_key_masking.md R168). -/
def matS (skey : Bank Word) : Matrix (Fin 4) (Fin 4) ℚ :=
  Matrix.of fun r c => ((bankGet skey (flatIndex r c)).toNat : ℚ)

/-- The channel pattern of v as a number: the ASCII codes of its decimal digits (42_channel_codec.md R200). -/
def channelCode (v : Nat) : Nat :=
  if v < 10 then 0x30 + v
  else if v < 100 then 0x3030 + 0x100 * (v / 10) + v % 10
  else 0x303030 + 0x10000 * (v / 100) + 0x100 * (v / 10 % 10) + v % 10

/-- The pattern x, as a number, holds one, two or three ASCII digits after leading zero bytes, and v is their decimal value
(42_channel_codec.md R201, R202). -/
def Decodes (x v : Nat) : Prop :=
  ∃ d2 d1 d0 : Nat, d2 ≤ 9 ∧ d1 ≤ 9 ∧ d0 ≤ 9 ∧
    ((x = 0x30 + d0 ∧ v = d0)
      ∨ (x = 0x3030 + 0x100 * d1 + d0 ∧ v = 10 * d1 + d0)
      ∨ (x = 0x303030 + 0x10000 * d2 + 0x100 * d1 + d0 ∧ v = 100 * d2 + 10 * d1 + d0))

/-- Bit p of the stream of `len` bytes followed by MARKER (43_payload.md R230 to R232): the bytes from their most significant
bit down, then fifteen 1 bits and a 0 bit. -/
def streamBit (byteAt : Nat → Byte) (len p : Nat) : Bool :=
  if p < 8 * len then (byteAt (p / 8)).getLsbD (7 - p % 8) else decide (p ≠ 8 * len + 15)

/-- The 16 bits before position n are MARKER (43_payload.md R238). -/
def MarkerEndsAt (f : Nat → Bool) (n : Nat) : Prop := 16 ≤ n ∧ ∀ k, k < 16 → f (n - 16 + k) = decide (k ≠ 15)

/-- Reading the bits of f one by one, at most N of them, stops after n of them, at the first marker if one is `found`. -/
structure StopsAt (f : Nat → Bool) (N n : Nat) (found : Bool) : Prop where
  le : n ≤ N
  first : ∀ m, m < n → ¬ MarkerEndsAt f m
  here : found = true ↔ MarkerEndsAt f n
  full : found = false → n = N

/-- The number of data bits: without the marker where it was found (43_payload.md R239). -/
def dataBits (n : Nat) (found : Bool) : Nat := if found then n - 16 else n

/-- The message byte k as EMBED reads it. -/
def msgByte (s : State) (k : Nat) : Byte := engineByte s.draws s.mem (msgBase + k)

/-- The metadata byte k as EMBED reads it. -/
def metaByte (s : State) (k : Nat) : Byte := engineByte s.draws s.mem (metaBase + k)

/-- Bit 0 of pixel p's blue byte as EXTRACT reads it (43_payload.md R233). -/
def blueBit (s : State) (p : Nat) : Bool := (engineByte s.draws s.mem (blueAt p)).getLsbD 0

/-- Bit 0 of pixel p's green byte as EXTRACT reads it (43_payload.md R233). -/
def greenBit (s : State) (p : Nat) : Bool := (engineByte s.draws s.mem (greenAt p)).getLsbD 0

/-- Every byte of a, a+1, …, a+n-1 lies in the buffer b (20_memory.md R75). -/
def Inside (P : Params) (b : Buffer) (a n : Nat) : Prop := b.base ≤ a ∧ a + n ≤ b.base + b.size P

/-- The five conditions of 20_memory.md R73. -/
def Inadmissible (P : Params) (a n : Nat) : Prop :=
  (n ≠ 1 ∧ n ≠ 2 ∧ n ≠ 4 ∧ n ≠ 8)
    ∨ a % n ≠ 0
    ∨ (0x400 ≤ a ∧ ∀ b : Buffer, ¬ Inside P b a 1)
    ∨ (a < 0x400 ∧ (n ≠ 8 ∨ ∀ r : RegName, a ≠ r.offset))
    ∨ ∃ b : Buffer, Inside P b a 1 ∧ ¬ Inside P b a n

/-- The number of each error code (60_exceptions.md R290). -/
def errorNumber : ErrorCode → BitVec 4
  | .ok => 0
  | .illegal => 1
  | .notInvertible => 2
  | .capacity => 3
  | .range => 4
  | .decode => 5
  | .domain => 6

/-- The bits of a register's named fields (10_state.md R25 to R32). -/
def fieldMask : RegName → Word
  | .arg => 0x1030F
  | .npix | .msgLen | .metaLen => 0xFFFFFFFF
  | .chVal | .pixR | .pixG | .pixB => 0x3FF
  | .chPat => 0xFFFFFF
  | .pixPatHi | .pin _ | .seed _ => 0xFF
  | _ => 0xFFFFFFFFFFFFFFFF

/-- The read-only registers (10_state.md R22, R28, R30, R25); a write to one is ignored. -/
def readOnly : RegName → Bool
  | .id | .offs | .xmsgLen | .xmetaLen | .xpix | .seedOut _ => true
  | _ => false

/-- What every register reads after a reset (10_state.md R37). -/
def resetValue : RegName → Word
  | .id => 0x000000074B4D5300
  | _ => 0

/-- The registers that 10_state.md R38's table lists for a command under "writes on success", STATUS apart. -/
def tableWrites : Instr → RegName → Bool
  | .matLoad, .mat _ _ | .scramble, .mat _ _ | .unscramble, .mat _ _ | .matStore, .vec _ => true
  | .pinCheck, .offs | .mask, .offs | .mask, .skey _ | .unmask, .offs | .unmask, .seedOut _ => true
  | .encCh, .chPat | .decCh, .chVal | .encPix, .pixPatLo | .encPix, .pixPatHi => true
  | .decPix, .pixR | .decPix, .pixG | .decPix, .pixB => true
  | .embed, .xpix | .extract, .xmsgLen | .extract, .xmetaLen | .extract, .xpix => true
  | _, _ => false

/-- EMBED's operands are within the capacities (43_payload.md R235). -/
def EmbedInRange (P : Params) (s : State) : Prop :=
  s.npix.toNat ≤ P.pixMax ∧ s.msgLen.toNat ≤ P.msgMax ∧ s.metaLen.toNat ≤ P.metaMax

/-- Lm (43_payload.md R232). -/
def lm (s : State) : Nat := 8 * s.msgLen.toNat + 16

/-- Ld (43_payload.md R232). -/
def ld (s : State) : Nat := 8 * s.metaLen.toNat + 16

/-- The flags of EMBED (43_payload.md R234). -/
def capacityFlags (s : State) : ResultFlags :=
  { capShort := decide (s.npix.toNat < lm s), metaTrunc := decide (lm s < ld s) }

end Sys2Proof.Claims

open Sys2Proof Sys2Proof.Machine Sys2Proof.Claims

/-! ## Encoding (30_encoding.md) -/

/-- R103, R105: the legal words are exactly the fourteen of the table, every other word is illegal with its cause, and the
encoder writes the word that decodes back. -/
def Obligations.DecodeExactlyTheTable : Prop :=
  (∀ (w : Word) (i : Instr), decode w = .ok i ↔ (w, i) ∈ legalWords)
    ∧ (∀ i : Instr, decode (encode i) = .ok i)
    ∧ ∀ w : Word, (∀ i, (w, i) ∉ legalWords) →
        decode w = .error (if w.toNat < 256 then .unassignedOpcode else .reservedBits)

/-- Words written out from the table decode to their commands, and the neighbours R104 calls illegal do not. -/
def Obligations.WrittenOutWordsDecode : Prop :=
  decode 0x0000000000000000 = .ok .nop ∧ decode 0x0000000000000002 = .ok .matStore
    ∧ decode 0x0000000000000012 = .ok .unmask ∧ decode 0x0000000000000023 = .ok .decPix
    ∧ decode 0x0000000000000031 = .ok .extract
    ∧ decode 0x0000000000000005 = .error .unassignedOpcode ∧ decode 0x8000000000000011 = .error .reservedBits

/-- R74, R101: a command's eight bytes, lowest address first, decode to it and leave the bytes that follow. -/
def Obligations.CommandBytesRoundTrip : Prop :=
  (∀ (i : Instr) (rest : List Byte), decodeBytes (encodeBytes i ++ rest) = .ok (i, rest))
    ∧ ∀ w : Word, ofLittleBytes (littleBytes 8 w) = w

/-! ## Life cycle (44_control.md) -/

/-- A step with a legal word in flight and the engine to move is exec of the decoded command, with nothing added. The engine
moves when the latency draw is used up or the host has nothing left to do (log 4). -/
def Obligations.StepRunsDecodedCommand : Prop :=
  ∀ (s : State) (w : Word) (st : Bool) (i : Instr),
    s.phase = .busy w st → (s.latency = 0 ∨ s.host = []) → decode w = .ok i → step s = exec i s

/-- When the engine does not move, a step performs the host's next operation; the draw index and the latency count are the
model's own (log 4, log 6). -/
def Obligations.StepPerformsHostOperation : Prop :=
  ∀ (s : State) (op : HostOp) (rest : List HostOp),
    (s.phase = .idle ∨ 0 < s.latency) → s.host = op :: rest →
      step s = .next { hostOp Config.hw { s with host := rest, latency := s.latency - 1 } op with draws := s.draws + 1 }

/-- R271: a host write of w to CMD while Idle issues it; the latency is a draw (log 4), the draw index is the model's own
(log 6), and operands are read live (log 8). -/
def Obligations.WriteToCmdIssues : Prop :=
  ∀ (s : State) (w : Word) (rest : List HostOp),
    s.phase = .idle → s.host = .write 0x018 8 w :: rest →
      step s = .next { s with
        host := rest, cmd := w, done := false, phase := .busy w s.strict,
        latency := Config.latency s.draws, draws := s.draws + 1 }

/-- R275: an illegal word completes with ERR = ILLEGAL and all result flags 0, and nothing else changes; that the engine moves
when the latency draw is used up or the host has nothing left to do is the model's choice (log 4). -/
def Obligations.IllegalWordCompletes : Prop :=
  ∀ (s : State) (w : Word) (st : Bool),
    s.phase = .busy w st → (s.latency = 0 ∨ s.host = []) → (∀ i, (w, i) ∉ legalWords) →
      step s = .next { s with err := .illegal, flags := {}, done := true, phase := .idle }

/-- R274: every command completes: the phase is Idle, DONE is 1, and ACCERR, BUSYWR, CTRL, CMD and the host's side are as
before. -/
def Obligations.EveryCommandCompletes : Prop :=
  ∀ (i : Instr) (s : State), ∃ t, exec i s = .next t
    ∧ t.phase = .idle ∧ t.done = true ∧ t.accerr = s.accerr ∧ t.busywr = s.busywr
    ∧ t.ie = s.ie ∧ t.strict = s.strict ∧ t.cmd = s.cmd ∧ t.host = s.host ∧ t.rdata = s.rdata

/-- R290: which command can report which code. -/
def Obligations.ErrorCodesByCommand : Prop :=
  ∀ (i : Instr) (s t : State), exec i s = .next t →
    match i with
    | .nop | .matLoad | .matStore | .scramble | .unscramble | .pinCheck => t.err = .ok
    | .mask | .unmask => t.err = .ok ∨ t.err = .notInvertible
    | .encCh | .encPix => t.err = .ok ∨ t.err = .domain
    | .decCh | .decPix => t.err = .ok ∨ t.err = .decode
    | .embed | .extract => t.err = .ok ∨ t.err = .range ∨ t.err = .capacity

/-- R38: every register but STATUS that the table does not list for a command reads as before it. -/
def Obligations.RegisterFrameOfEveryCommand : Prop :=
  ∀ (i : Instr) (s t : State) (r : RegName), exec i s = .next t → r ≠ .status →
    tableWrites i r = false → readReg t r = readReg s r

/-- R78: no command but EMBED and EXTRACT touches a buffer byte. -/
def Obligations.RegisterCommandsKeepMemory : Prop :=
  ∀ (i : Instr) (s t : State), i ≠ .embed → i ≠ .extract → exec i s = .next t →
    ∀ a, Memory.read? t.mem a = Memory.read? s.mem a

/-- R236, R78: EMBED changes no byte but the blue bytes of the pixels it visits and the green bytes of those that carry a
metadata bit. -/
def Obligations.EmbedMemoryFrame : Prop :=
  ∀ s t : State, exec .embed s = .next t → ∀ a,
    (∀ p, p < min s.npix.toNat (lm s) → a ≠ blueAt p) →
    (∀ p, p < min s.npix.toNat (lm s) → p < ld s → a ≠ greenAt p) →
      Memory.read? t.mem a = Memory.read? s.mem a

/-- R239: EXTRACT changes no byte but MSGBUF bytes below XMSG_LEN and METABUF bytes below XMETA_LEN. -/
def Obligations.ExtractMemoryFrame : Prop :=
  ∀ s t : State, exec .extract s = .next t → ∀ a,
    (a < msgBase ∨ msgBase + t.xmsgLen.toNat ≤ a) → (a < metaBase ∨ metaBase + t.xmetaLen.toNat ≤ a) →
      Memory.read? t.mem a = Memory.read? s.mem a

/-- R273: a command that fails writes no output, but OFFS for MASK and UNMASK, XPIX = 0 for EMBED's CAPACITY, and what EXTRACT
writes on CAPACITY. -/
def Obligations.FailedCommandWritesNoOutput : Prop :=
  ∀ (i : Instr) (s t : State), exec i s = .next t → t.err ≠ .ok → (i ≠ .extract ∨ t.err ≠ .capacity) →
    (∀ a, Memory.read? t.mem a = Memory.read? s.mem a)
      ∧ (∀ r : RegName, r ≠ .status → ¬ (r = .offs ∧ (i = .mask ∨ i = .unmask)) →
          ¬ (r = .xpix ∧ i = .embed ∧ t.err = .capacity) → readReg t r = readReg s r)
      ∧ (i = .embed → t.err = .capacity → t.xpix = 0)

/-- R276: NOP does nothing but complete with ERR = OK and all result flags 0. -/
def Obligations.NopOnlyCompletes : Prop :=
  ∀ s : State, exec .nop s = .next { s with err := .ok, flags := {}, done := true, phase := .idle }

/-! ## Matrix Codec and Scrambler (40_matrix_scrambler.md) -/

/-- R140: MAT[r][c] takes VEC[(ARG.OFFSET + 4r + c) mod 16]; nothing else changes but the completion's fields. -/
def Obligations.MatLoadReadsVecFromOffset : Prop :=
  ∀ s : State, ∃ m : Bank Word,
    exec .matLoad s = .next { s with mat := m, err := .ok, flags := {}, done := true, phase := .idle }
      ∧ ∀ r c : Fin 4,
          bankGet m (flatIndex r c) = bankGet s.vec (Fin.ofNat 16 (s.arg.offset.toNat + 4 * r.val + c.val))

/-- R141 by R131's procedure: at step i, with idx = (ARG.OFFSET - i) mod 16, VEC[i] takes flat element 0 of MAT where idx is 0
and element 16 - idx where it is not, bit for bit; nothing else changes but the completion's fields. -/
def Obligations.MatStoreReadsBackByDistance : Prop :=
  ∀ s : State, ∃ v : Bank Word,
    exec .matStore s = .next { s with vec := v, err := .ok, flags := {}, done := true, phase := .idle }
      ∧ ∀ (i : Fin 16) (idx : Nat), idx = (s.arg.offset.toNat + 16 - i.val) % 16 →
          bankGet v i = if idx = 0 then bankGet s.mat 0 else bankGet s.mat (Fin.ofNat 16 (16 - idx))

/-- R142 with R137's table: SCRAMBLE moves MAT[π(r)][π(c)] to MAT[r][c].
The permutation is R137's table, which the spec marks as derived from R134 to R136. -/
def Obligations.ScramblePermutesMat : Prop :=
  ∀ s : State, ∃ m : Bank Word,
    exec .scramble s = .next { s with mat := m, err := .ok, flags := {}, done := true, phase := .idle }
      ∧ ∀ r c : Fin 4, bankGet m (flatIndex r c) = bankGet s.mat (flatIndex (argPi s r) (argPi s c))

/-- R143 with R137's table: UNSCRAMBLE moves MAT[r][c] to MAT[π(r)][π(c)].
The permutation is R137's table, which the spec marks as derived from R134 to R136. -/
def Obligations.UnscramblePermutesBack : Prop :=
  ∀ s : State, ∃ m : Bank Word,
    exec .unscramble s = .next { s with mat := m, err := .ok, flags := {}, done := true, phase := .idle }
      ∧ ∀ r c : Fin 4, bankGet m (flatIndex (argPi s r) (argPi s c)) = bankGet s.mat (flatIndex r c)

/-- R133: the closed form of toSequence, and that it undoes toMatrix at the same offset.
The spec marks R133 as derived from R130 and R131. -/
def Obligations.ToSequenceUndoesToMatrix : Prop :=
  (∀ (M : Mat ℚ) (o : Int) (i : Fin 16),
      toSequence M o i
        = roundEven (M ⟨((i.val - o) % 16).toNat / 4, by omega⟩ ⟨((i.val - o) % 16).toNat % 4, by omega⟩))
    ∧ (∀ (q : Fin 16 → ℤ) (o : Int), toSequence (toRat (toMatrix q o)) o = q)
    ∧ ∀ (M : Mat ℚ) (r c : Fin 4), toSequence M 0 (flatIndex r c) = roundEven (M r c)

/-- R137: unscramble undoes scramble for every mixIndex and both modes; scramble is the table's permutation of rows and
columns alike, and keeps the determinant up to sign.
The spec marks R137 as derived from R134 to R136. -/
def Obligations.UnscrambleUndoesScramble : Prop :=
  (∀ (α : Type) (M : Mat α) (k : Fin 4) (mode : Mode),
      unscramble (scramble M k mode) k mode = M
        ∧ ∀ r c, scramble M k mode r c = M (scramblePi mode k r) (scramblePi mode k c))
    ∧ ∀ (M : Mat ℚ) (k : Fin 4) (mode : Mode),
        Matrix.det (Matrix.of (scramble M k mode)) = Matrix.det (Matrix.of M)
          ∨ Matrix.det (Matrix.of (scramble M k mode)) = - Matrix.det (Matrix.of M)

/-- R132: round(x) is an integer nearest to x, the even one where two are nearest, and x itself where x is an integer. -/
def Obligations.RoundsToNearestTiesToEven : Prop :=
  (∀ (x : ℚ) (n : ℤ), |x - roundEven x| ≤ |x - n|)
    ∧ (∀ (x : ℚ) (n : ℤ), n ≠ roundEven x → |x - n| = |x - roundEven x| → Even (roundEven x))
    ∧ ∀ n : ℤ, roundEven n = n

/-! ## Key masking (41_key_masking.md) -/

/-- R160: the offset function, its form as bits 7..4 of the sum, and the range of the sum.
The spec marks the form by bits as derived from the definition. -/
def Obligations.OffsetIsBitsSevenToFour : Prop :=
  ∀ (pin : Bank Byte) (c : Nat),
    ofs pin c = (pinTotal pin + c) / 16 % 16
      ∧ ofs pin c = ((BitVec.ofNat 8 (pinTotal pin + c)).extractLsb' 4 4).toNat
      ∧ pinTotal pin ≤ 4080

/-- R164, R161: PIN_CHECK writes OFFS and PINSING, 1 exactly when det(P) = 0; ERR = OK either way. -/
def Obligations.PinCheckReportsSingularity : Prop :=
  ∀ s : State, ∃ (o : OffsFields) (b : Bool),
    exec .pinCheck s
        = .next { s with offs := o, err := .ok, flags := { pinsing := b }, done := true, phase := .idle }
      ∧ HoldsOffsets s.pin o ∧ (b = true ↔ (matP s.pin).det = 0)

/-- R167, R166: with a non-singular pin MASK writes OFFS and the StorageKey, each element the exact sum of products; with a
singular pin it writes OFFS and PINSING and ends with NOT_INVERTIBLE.
C' and K' are written with R137's table, which the spec marks as derived. -/
def Obligations.MaskWritesStorageKey : Prop :=
  ∀ s : State,
    ((matP s.pin).det ≠ 0 → ∃ (o : OffsFields) (k : Bank Word),
      exec .mask s = .next { s with offs := o, skey := k, err := .ok, flags := {}, done := true, phase := .idle }
        ∧ HoldsOffsets s.pin o
        ∧ ∀ i j : Fin 4, ((bankGet k (flatIndex i j)).toNat : ℤ)
            = ∑ l : Fin 4, ∑ m : Fin 4, matC s.pin i l * matP s.pin l m * matK s.pin s.seed m j)
    ∧ ((matP s.pin).det = 0 → ∃ o : OffsFields,
      exec .mask s = .next { s with
          offs := o, err := .notInvertible, flags := { pinsing := true }, done := true, phase := .idle }
        ∧ HoldsOffsets s.pin o)

/-- R166: every StorageKey element is non-negative, at most 1040400 times the largest table entry, and below 2^64.
The spec marks this bound as derived from R166's formula. -/
def Obligations.StorageKeyFitsRegister : Prop :=
  ∀ (P : Config.Params) (pin seed : Bank Byte) (i : Fin 16) (top : Nat), P.wf = true →
    (∀ k, bankGet P.constTable k ≤ top) →
      0 ≤ storageKey P pin seed i ∧ storageKey P pin seed i ≤ 1040400 * top ∧ storageKey P pin seed i < 2 ^ 64

/-- R172: with the constant table of this implementation, the product matrix is singular exactly when the pin is.
It is an inference from R172's det(Pr) = det(C') · det(P) and R7 item 3. -/
def Obligations.ProductSingularIffPinSingular : Prop :=
  ∀ pin : Bank Byte, det4 (productMatrix Config.hw pin) = 0 ↔ (matP pin).det = 0

/-- R171, R168, R169, R173: with a non-singular pin UNMASK writes OFFS and SEED_OUT: the exact solution of Pr · K'' = S,
unscrambled, flattened from oK, rounded and truncated to 64 bits, with SEED_RANGE set exactly when an element is outside
0..255. With a singular pin it writes OFFS and PINSING and ends with NOT_INVERTIBLE.
C' and the unscramble are written with R137's table, which the spec marks as derived. -/
def Obligations.UnmaskRecoversSeed : Prop :=
  ∀ s : State,
    ((matP s.pin).det ≠ 0 → ∃ (o : OffsFields) (q : Bank Word) (b : Bool) (K'' K : Matrix (Fin 4) (Fin 4) ℚ)
        (out : Fin 16 → ℤ),
      exec .unmask s = .next { s with
          offs := o, seedOut := q, err := .ok, flags := { seedRange := b }, done := true, phase := .idle }
        ∧ HoldsOffsets s.pin o
        ∧ ((matC s.pin * matP s.pin).map fun x : ℤ => (x : ℚ)) * K'' = matS s.skey
        ∧ (∀ r c, K (scramblePi .seed (mixS s.pin) r) (scramblePi .seed (mixS s.pin) c) = K'' r c)
        ∧ (∀ r c : Fin 4, out (Fin.ofNat 16 (oK s.pin + 4 * r.val + c.val)) = roundEven (K r c))
        ∧ (∀ i, bankGet q i = BitVec.ofInt 64 (out i))
        ∧ (b = true ↔ ∃ i, out i < 0 ∨ 255 < out i))
    ∧ ((matP s.pin).det = 0 → ∃ o : OffsFields,
      exec .unmask s = .next { s with
          offs := o, err := .notInvertible, flags := { pinsing := true }, done := true, phase := .idle }
        ∧ HoldsOffsets s.pin o)

/-- R170: MASK, then UNMASK with the same PIN and the SKEY that MASK wrote, gives the seed back.
The spec marks R170 as derived from R133, R137, R166 and R169. -/
def Obligations.MaskUnmaskRoundTrip : Prop :=
  ∀ s : State, (matP s.pin).det ≠ 0 → ∃ t, exec .mask s = .next t ∧
    ∀ t' : State, t'.pin = s.pin → t'.skey = t.skey → ∃ u, exec .unmask t' = .next u
      ∧ u.err = .ok ∧ u.flags.seedRange = false
      ∧ ∀ i, bankGet u.seedOut i = (bankGet s.seed i).setWidth 64

/-! ## Channel codec (42_channel_codec.md) -/

/-- R206: ENC_CH writes the pattern of a value up to 255, and ends with DOMAIN and writes nothing above it. -/
def Obligations.EncChWritesPattern : Prop :=
  ∀ s : State,
    (s.chVal.toNat ≤ 255 → ∃ x : BitVec 24,
      exec .encCh s = .next { s with chPat := x, err := .ok, flags := {}, done := true, phase := .idle }
        ∧ x.toNat = channelCode s.chVal.toNat)
    ∧ (255 < s.chVal.toNat →
      exec .encCh s = .next { s with err := .domain, flags := {}, done := true, phase := .idle })

/-- R201 to R203: decodeChannel accepts exactly one to three digit bytes after leading zero bytes, leading '0' digits among
them, and answers their decimal value, at most 999. -/
def Obligations.DecodeChannelAccepts : Prop :=
  ∀ (x : BitVec 24) (v : Nat), (decodeChannel x = some v ↔ Decodes x.toNat v) ∧ (decodeChannel x = some v → v ≤ 999)

/-- R207: DEC_CH writes the value of a pattern that decodes, and ends with DECODE and writes nothing on any other. -/
def Obligations.DecChWritesValue : Prop :=
  ∀ s : State,
    (∀ v, Decodes s.chPat.toNat v → ∃ x : BitVec 10,
      exec .decCh s = .next { s with chVal := x, err := .ok, flags := {}, done := true, phase := .idle } ∧ x.toNat = v)
    ∧ ((∀ v, ¬ Decodes s.chPat.toNat v) →
      exec .decCh s = .next { s with err := .decode, flags := {}, done := true, phase := .idle })

/-- R208: ENC_PIX writes the 72-bit pattern of three values up to 255, and ends with DOMAIN and writes nothing where one is
above. -/
def Obligations.EncPixWritesPattern : Prop :=
  ∀ s : State,
    (s.pixR.toNat ≤ 255 → s.pixG.toNat ≤ 255 → s.pixB.toNat ≤ 255 → ∃ (hi : Byte) (lo : Word),
      exec .encPix s
          = .next { s with pixPatHi := hi, pixPatLo := lo, err := .ok, flags := {}, done := true, phase := .idle }
        ∧ hi.toNat * 2 ^ 64 + lo.toNat
            = channelCode s.pixR.toNat * 2 ^ 48 + channelCode s.pixG.toNat * 2 ^ 24 + channelCode s.pixB.toNat)
    ∧ (255 < s.pixR.toNat ∨ 255 < s.pixG.toNat ∨ 255 < s.pixB.toNat →
      exec .encPix s = .next { s with err := .domain, flags := {}, done := true, phase := .idle })

/-- R209: DEC_PIX writes the three values where all three patterns decode, and ends with DECODE and writes nothing where one
does not. -/
def Obligations.DecPixWritesValues : Prop :=
  ∀ (s : State) (xr xg xb : Nat), xr < 2 ^ 24 → xg < 2 ^ 24 → xb < 2 ^ 24 →
    s.pixPatHi.toNat * 2 ^ 64 + s.pixPatLo.toNat = xr * 2 ^ 48 + xg * 2 ^ 24 + xb →
    (∀ r g b, Decodes xr r → Decodes xg g → Decodes xb b → ∃ yr yg yb : BitVec 10,
      exec .decPix s = .next { s with
          pixR := yr, pixG := yg, pixB := yb, err := .ok, flags := {}, done := true, phase := .idle }
        ∧ yr.toNat = r ∧ yg.toNat = g ∧ yb.toNat = b)
    ∧ ((∀ v, ¬ Decodes xr v) ∨ (∀ v, ¬ Decodes xg v) ∨ (∀ v, ¬ Decodes xb v) →
      exec .decPix s = .next { s with err := .decode, flags := {}, done := true, phase := .idle })

/-- R204: the four codec laws, for every value in 0..255.
The spec marks R204 as derived from R200 and R201. -/
def Obligations.ChannelCodecLaws : Prop :=
  ∀ v : Nat, v ≤ 255 →
    decodeChannel (encodeChannel v) = some v
      ∧ (encodeChannel v).getLsbD 0 = decide (v % 2 = 1)
      ∧ (∀ b : Bool, decodeChannel ((encodeChannel v).extractLsb' 1 23 ++ BitVec.ofBool b)
            = some (v - v % 2 + b.toNat) ∧ v - v % 2 + b.toNat ≤ 255)
      ∧ decodeChannel (encodeChannel v ^^^ 1) = some (if v % 2 = 0 then v + 1 else v - 1)

/-- R209's corner case: ENC_PIX then DEC_PIX restores the three channel registers.
It follows from R204 item 1, which the spec marks as derived. -/
def Obligations.EncPixThenDecPixRestores : Prop :=
  ∀ s : State, s.pixR.toNat ≤ 255 → s.pixG.toNat ≤ 255 → s.pixB.toNat ≤ 255 →
    ∃ t u, exec .encPix s = .next t ∧ exec .decPix t = .next u ∧ u.err = .ok
      ∧ u.pixR = s.pixR ∧ u.pixG = s.pixG ∧ u.pixB = s.pixB

/-! ## Payload (43_payload.md) -/

/-- R235: a length or count above its capacity ends EMBED and EXTRACT with RANGE, and nothing but STATUS is written. -/
def Obligations.RangeCheckComesFirst : Prop :=
  ∀ s : State,
    (¬ EmbedInRange Config.hw s →
      exec .embed s = .next { s with err := .range, flags := {}, done := true, phase := .idle })
    ∧ (Config.hw.pixMax < s.npix.toNat →
      exec .extract s = .next { s with err := .range, flags := {}, done := true, phase := .idle })

/-- R234: under STRICT, as sampled at issue, a carrier too short or a metadata stream too long ends EMBED with CAPACITY: XPIX
is 0, the flags tell which, and no pixel is written.
The operands are read live (log 8). -/
def Obligations.StrictEmbedRefusesCapacity : Prop :=
  ∀ (s : State) (w : Word), s.phase = .busy w true → EmbedInRange Config.hw s → (s.npix.toNat < lm s ∨ lm s < ld s) →
    exec .embed s
      = .next { s with xpix := 0, err := .capacity, flags := capacityFlags s, done := true, phase := .idle }

/-- R236, R237, R233: EMBED under LEGACY, or with room for both streams: pixel p's blue byte takes message bit p in its bit
0, its green byte metadata bit p while that stream lasts, XPIX is min(NPIX, Lm), the flags tell the capacity conditions,
ERR = OK, and nothing else changes; the draw index is the model's own (log 6), as is the free value that an unwritten
byte is read as (log 5).
The bit-0 form of the overwrite is R233's, which the spec marks as derived from R204. -/
def Obligations.EmbedWritesBothStreams : Prop :=
  ∀ (s : State) (w : Word) (st : Bool), s.phase = .busy w st → EmbedInRange Config.hw s →
    (st = false ∨ (lm s ≤ s.npix.toNat ∧ ld s ≤ lm s)) →
    ∃ (m : Memory) (x : BitVec 32),
      exec .embed s = .next { s with
          mem := m, xpix := x, draws := s.draws + 1, err := .ok, flags := capacityFlags s, done := true, phase := .idle }
        ∧ x.toNat = min s.npix.toNat (lm s)
        ∧ (∀ p, p < min s.npix.toNat (lm s) → ∃ v, Memory.read? m (blueAt p) = some v
            ∧ v.toNat = (engineByte s.draws s.mem (blueAt p)).toNat / 2 * 2
                + (streamBit (msgByte s) s.msgLen.toNat p).toNat)
        ∧ (∀ p, p < min s.npix.toNat (lm s) → p < ld s → ∃ v, Memory.read? m (greenAt p) = some v
            ∧ v.toNat = (engineByte s.draws s.mem (greenAt p)).toNat / 2 * 2
                + (streamBit (metaByte s) s.metaLen.toNat p).toNat)
        ∧ (∀ a, (∀ p, p < min s.npix.toNat (lm s) → a ≠ blueAt p) →
            (∀ p, p < min s.npix.toNat (lm s) → p < ld s → a ≠ greenAt p) →
              Memory.read? m a = Memory.read? s.mem a)

/-- R238 to R241: EXTRACT reads blue bits up to the first message marker (or the end of the carrier) and green bits up to the
first metadata marker within those pixels, writes the whole bytes of each stream without its marker, their counts and
the number of pixels read, and reports what it did not find; the draw index and the value of an unwritten pixel byte
are the model's own (log 6, log 5).
The bit-0 form of the read is R233's, which the spec marks as derived from R204. -/
def Obligations.ExtractReadsBothStreams : Prop :=
  ∀ s : State, s.npix.toNat ≤ Config.hw.pixMax →
    ∃ (t : State) (nm nd : Nat) (fm fd : Bool),
      exec .extract s = .next t
        ∧ t = { s with
            mem := t.mem, xmsgLen := t.xmsgLen, xmetaLen := t.xmetaLen, xpix := t.xpix, draws := s.draws + 1,
            err := if fm && fd then .ok else .capacity,
            flags := { msgNf := !fm, metaNf := !fd, msgAlign := decide (dataBits nm fm % 8 ≠ 0),
                       metaAlign := decide (dataBits nd fd % 8 ≠ 0) },
            done := true, phase := .idle }
        ∧ StopsAt (blueBit s) s.npix.toNat nm fm ∧ StopsAt (greenBit s) nm nd fd
        ∧ t.xpix.toNat = nm ∧ t.xmsgLen.toNat = dataBits nm fm / 8 ∧ t.xmetaLen.toNat = dataBits nd fd / 8
        ∧ (∀ k, k < t.xmsgLen.toNat → ∃ v, Memory.read? t.mem (msgBase + k) = some v
            ∧ ∀ b, b < 8 → v.getLsbD (7 - b) = blueBit s (8 * k + b))
        ∧ (∀ k, k < t.xmetaLen.toNat → ∃ v, Memory.read? t.mem (metaBase + k) = some v
            ∧ ∀ b, b < 8 → v.getLsbD (7 - b) = greenBit s (8 * k + b))
        ∧ (∀ a, (a < msgBase ∨ msgBase + t.xmsgLen.toNat ≤ a) → (a < metaBase ∨ metaBase + t.xmetaLen.toNat ≤ a) →
            Memory.read? t.mem a = Memory.read? s.mem a)

/-- R242: with room for both streams and no false marker in either, EMBED completes with ERR = OK, and a later EXTRACT with the
same NPIX over the same pixel bytes returns both byte sequences exactly. It is said for every parameter set P that the
spec admits; the two commands of the machine are these at `Config.hw`.
The value of an unwritten message, metadata or pixel byte is the draw that EMBED makes, and the draw index is the model's
own (R78; log 5, log 6).
The spec marks R242 as derived from R236, R238 and R239. -/
def Obligations.EmbedExtractRoundTrip : Prop :=
  (∀ s : State, exec .embed s = .next (embedCmd Config.hw s) ∧ exec .extract s = .next (extractCmd Config.hw s))
    ∧ ∀ (P : Config.Params) (s : State), P.wf = true → EmbedInRange P s → lm s ≤ s.npix.toNat → ld s ≤ lm s →
      (∀ m, m < lm s → ¬ MarkerEndsAt (streamBit (msgByte s) s.msgLen.toNat) m) →
      (∀ m, m < ld s → ¬ MarkerEndsAt (streamBit (metaByte s) s.metaLen.toNat) m) →
      (embedCmd P s).err = .ok
        ∧ ∀ t : State, t.npix = s.npix →
          (∀ p, p < s.npix.toNat → Memory.read? t.mem (blueAt p) = Memory.read? (embedCmd P s).mem (blueAt p)
              ∧ Memory.read? t.mem (greenAt p) = Memory.read? (embedCmd P s).mem (greenAt p)) →
            (extractCmd P t).err = .ok
              ∧ (extractCmd P t).xmsgLen = s.msgLen ∧ (extractCmd P t).xmetaLen = s.metaLen
              ∧ (extractCmd P t).xpix.toNat = lm s
              ∧ (∀ k, k < s.msgLen.toNat → Memory.read? (extractCmd P t).mem (msgBase + k) = some (msgByte s k))
              ∧ ∀ k, k < s.metaLen.toNat → Memory.read? (extractCmd P t).mem (metaBase + k) = some (metaByte s k)

/-- R243: the detector of EXTRACT finds no marker in a stream whose bytes are all below 0x80, read bit by bit, before the
stream's own; so in the message and the metadata stream that EMBED sends, whose unwritten bytes are the draw it makes
(log 5, log 6).
The spec marks R243 as derived from R231 and R238. -/
def Obligations.AsciiStreamHasNoFalseMarker : Prop :=
  (∀ bs : List Byte, (∀ b ∈ bs, b.toNat < 0x80) →
      (∀ m, m < (bitsOf bs ++ marker).length → endsInMarker ((bitsOf bs ++ marker).take m) = false)
        ∧ endsInMarker (bitsOf bs ++ marker) = true)
    ∧ ∀ (s : State) (q : List Bool),
      (q = messageStream s.draws s ∧ ∀ k, k < s.msgLen.toNat → (msgByte s k).toNat < 0x80)
        ∨ (q = metadataStream s.draws s ∧ ∀ k, k < s.metaLen.toNat → (metaByte s k).toNat < 0x80) →
      (∀ m, m < q.length → endsInMarker (q.take m) = false) ∧ endsInMarker q = true

/-- R231: serialization takes bytes in ascending order and each from its most significant bit down; deserialization gives
them back and drops a rest of fewer than 8 bits. -/
def Obligations.SerializationRoundTrip : Prop :=
  (∀ bs : List Byte, (bitsOf bs).length = 8 * bs.length ∧ bytesOf (bitsOf bs) = bs
      ∧ ∀ k j, k < bs.length → j < 8 → (bitsOf bs)[8 * k + j]? = (bs[k]?).map fun b => b.getLsbD (7 - j))
    ∧ ∀ q : List Bool, (bytesOf q).length = q.length / 8
      ∧ ∀ k j, k < q.length / 8 → j < 8 → ((bytesOf q)[k]?).map (fun b => b.getLsbD (7 - j)) = q[8 * k + j]?

/-! ## The host's side (10_state.md, 20_memory.md, 70_reset_and_hazards.md) -/

/-- R72, R25: an offset names a register exactly when it is that register's. -/
def Obligations.AddressMapNamesEachRegister : Prop :=
  ∀ (off : Nat) (r : RegName), regAt off = some r ↔ off = r.offset

/-- R73: an inadmissible read returns 0, an inadmissible write changes no register and no byte, and each sets ACCERR. -/
def Obligations.InadmissibleAccessOnlySetsAccerr : Prop :=
  ∀ (P : Config.Params) (s : State) (a : BitVec 22) (n : Nat) (v : Word), P.wf = true → Inadmissible P a.toNat n →
    hostOp P s (.read a n) = { s with rdata := 0, accerr := true }
      ∧ hostOp P s (.write a n v) = { s with accerr := true }

/-- R21: while Idle, a host write to a register other than CTRL, STATUS and CMD stores its named fields, which then read back
with every reserved bit 0, and changes no other register and no buffer byte; a read-only register ignores it. -/
def Obligations.RegisterWriteReadsBack : Prop :=
  ∀ (P : Config.Params) (s : State) (r : RegName) (v : Word), s.phase = .idle →
    r ≠ .ctrl → r ≠ .status → r ≠ .cmd →
    (readOnly r = true → hostOp P s (.write (BitVec.ofNat 22 r.offset) 8 v) = s)
      ∧ (readOnly r = false →
        readReg (hostOp P s (.write (BitVec.ofNat 22 r.offset) 8 v)) r = v &&& fieldMask r
          ∧ (∀ r', r' ≠ r → readReg (hostOp P s (.write (BitVec.ofNat 22 r.offset) 8 v)) r' = readReg s r')
          ∧ (hostOp P s (.write (BitVec.ofNat 22 r.offset) 8 v)).mem = s.mem
          ∧ (hostOp P s (.write (BitVec.ofNat 22 r.offset) 8 v)).phase = .idle)

/-- R74, R75: while Idle, an admissible buffer write of n bytes stores byte k of the value at a + k and nothing else, and an
n-byte read returns the bytes that n 1-byte reads return. -/
def Obligations.BufferAccessIsLittleEndian : Prop :=
  ∀ (P : Config.Params) (s : State) (b : Buffer) (a : BitVec 22) (n : Nat) (v : Word), P.wf = true → s.phase = .idle →
    (n = 1 ∨ n = 2 ∨ n = 4 ∨ n = 8) → a.toNat % n = 0 → Inside P b a.toNat n →
    (∃ m, hostOp P s (.write a n v) = { s with mem := m }
        ∧ (∀ k, k < n → Memory.read? m (a.toNat + k) = some (v.extractLsb' (8 * k) 8))
        ∧ ∀ x, (x < a.toNat ∨ a.toNat + n ≤ x) → Memory.read? m x = Memory.read? s.mem x)
      ∧ ∀ k, k < n → (hostOp P s (.read a n)).rdata.extractLsb' (8 * k) 8
          = (hostOp P s (.read (BitVec.ofNat 22 (a.toNat + k)) 1)).rdata.extractLsb' 0 8

/-- R326: while Busy, an admissible host write to anything but CTRL and STATUS is dropped and sets BUSYWR.
That a read-only register's write counts is the model's reading (log 13). -/
def Obligations.BusyWriteIsDropped : Prop :=
  ∀ (P : Config.Params) (s : State) (w : Word) (st : Bool) (a : BitVec 22) (n : Nat) (v : Word), P.wf = true →
    s.phase = .busy w st → ¬ Inadmissible P a.toNat n → a.toNat ≠ 0x008 → a.toNat ≠ 0x010 →
      hostOp P s (.write a n v) = { s with busywr := true }

/-- R77, R72, R327: an admissible host read changes nothing but the read data return; a register that no command in flight
writes reads its current value, STATUS among them. -/
def Obligations.HostReadHasNoSideEffect : Prop :=
  ∀ (P : Config.Params) (s : State), P.wf = true →
    (∀ (a : BitVec 22) (n : Nat), ¬ Inadmissible P a.toNat n → ∃ d, hostOp P s (.read a n) = { s with rdata := d })
      ∧ ∀ r : RegName,
          (∀ w st i, s.phase = .busy w st → decode w = .ok i → tableWrites i r = false) →
          hostOp P s (.read (BitVec.ofNat 22 r.offset) 8) = { s with rdata := readReg s r }

/-- R327, R77, R321: a buffer byte that has been written, and that no EMBED or EXTRACT in flight could write, reads its current
value. -/
def Obligations.WrittenByteReadsBack : Prop :=
  ∀ (P : Config.Params) (s : State) (b : Buffer) (a : BitVec 22) (v : Byte), P.wf = true →
    Inside P b a.toNat 1 → Memory.read? s.mem a.toNat = some v →
    (∀ w st, s.phase = .busy w st → decode w = .ok .embed →
      ∀ p, p < min s.npix.toNat (lm s) → a.toNat ≠ greenAt p ∧ a.toNat ≠ blueAt p) →
    (∀ w st, s.phase = .busy w st → decode w = .ok .extract →
      ∀ k, k < s.npix.toNat / 8 → a.toNat ≠ msgBase + k ∧ a.toNat ≠ metaBase + k) →
      hostOp P s (.read a 1) = { s with rdata := v.setWidth 64 }

/-- R23, R24: a host write to CTRL without SRST stores IE and STRICT, one to STATUS clears DONE, ACCERR and BUSYWR where it has
a 1, Idle or Busy; nothing else changes. -/
def Obligations.CtrlAndStatusWrites : Prop :=
  ∀ (P : Config.Params) (s : State) (v : Word),
    (v.getLsbD 1 = false →
        hostOp P s (.write 0x008 8 v) = { s with ie := v.getLsbD 0, strict := v.getLsbD 2 })
      ∧ hostOp P s (.write 0x010 8 v) = { s with
          done := s.done && !v.getLsbD 1, accerr := s.accerr && !v.getLsbD 30, busywr := s.busywr && !v.getLsbD 31 }

/-- R24, R290: STATUS shows each of its fields at its place, ERR as the number 0 to 6 of its code, and BUSY exactly while a
command is in flight. -/
def Obligations.StatusShowsItsFields : Prop :=
  ∀ s : State,
    ((readReg s .status).getLsbD 0 = true ↔ s.phase ≠ .idle)
      ∧ (readReg s .status).getLsbD 1 = s.done
      ∧ (readReg s .status).extractLsb' 8 4 = errorNumber s.err
      ∧ (readReg s .status).getLsbD 16 = s.flags.pinsing ∧ (readReg s .status).getLsbD 17 = s.flags.seedRange
      ∧ (readReg s .status).getLsbD 18 = s.flags.msgNf ∧ (readReg s .status).getLsbD 19 = s.flags.metaNf
      ∧ (readReg s .status).getLsbD 20 = s.flags.metaTrunc ∧ (readReg s .status).getLsbD 21 = s.flags.capShort
      ∧ (readReg s .status).getLsbD 22 = s.flags.msgAlign ∧ (readReg s .status).getLsbD 23 = s.flags.metaAlign
      ∧ (readReg s .status).getLsbD 30 = s.accerr ∧ (readReg s .status).getLsbD 31 = s.busywr
      ∧ readReg s .status &&& 0xFFFFFFFF3F00F0FC = 0

/-- R277, R37: a host write to CTRL with SRST = 1, Idle or Busy, gives every register its reset value and makes the phase
Idle; while Idle no buffer byte changes. -/
def Obligations.SoftResetClearsRegisters : Prop :=
  ∀ (P : Config.Params) (s : State) (v : Word), v.getLsbD 1 = true →
    (∀ r, readReg (hostOp P s (.write 0x008 8 v)) r = resetValue r)
      ∧ (hostOp P s (.write 0x008 8 v)).phase = .idle
      ∧ (hostOp P s (.write 0x008 8 v)).irq = false
      ∧ (s.phase = .idle → (hostOp P s (.write 0x008 8 v)).mem = s.mem)

/-- R322: a soft reset that aborts EMBED or EXTRACT leaves each byte that the command could have written at its old value or at
the one the completion would have written, and every other byte, and every byte under any other command, as it was.
How the new value is computed is the model's reading (log 10). -/
def Obligations.AbortedBytesAreOldOrNew : Prop :=
  ∀ (s : State) (w : Word) (st : Bool) (v : Word), Memory.wf s.mem = true → s.phase = .busy w st →
    v.getLsbD 1 = true → ∀ a,
    Memory.read? (hostOp Config.hw s (.write 0x008 8 v)).mem a = Memory.read? s.mem a
      ∨ ∃ i t, decode w = .ok i ∧ exec i s = .next t
          ∧ Memory.read? (hostOp Config.hw s (.write 0x008 8 v)).mem a = Memory.read? t.mem a
          ∧ ((i = .embed ∧ ∃ p, p < min s.npix.toNat (8 * s.msgLen.toNat + 16) ∧ (a = greenAt p ∨ a = blueAt p))
            ∨ (i = .extract ∧ ∃ k, k < s.npix.toNat / 8 ∧ (a = msgBase + k ∨ a = metaBase + k)))

/-- R320, R321: power-on reset, and the state it starts from, have every register at its reset value, the phase Idle, IRQ
deasserted and every buffer byte unwritten.
The reset input is a host operation of the model (log 12). -/
def Obligations.PowerOnResetState : Prop :=
  ∀ s : State, ∀ t, (t = State.reset ∨ t = hostOp Config.hw s .powerOn) →
    (∀ r, readReg t r = resetValue r) ∧ t.phase = .idle ∧ t.irq = false ∧ ∀ a, Memory.read? t.mem a = none

/-- R296: IRQ is IE and DONE; it is up after every completion with IE = 1, of a command and of an illegal word (R275), and so
after every step in which the engine ends the word in flight; it is down after an acknowledge, after an issue, after IE
is cleared (which leaves DONE) and after a reset.
When the engine moves is the model's choice (log 4); that power-on reset is a host operation is too (log 12). -/
def Obligations.InterruptOutput : Prop :=
  (∀ s : State, s.irq = (s.ie && s.done))
    ∧ (∀ (i : Instr) (s t : State), exec i s = .next t → t.irq = s.ie)
    ∧ (∀ s : State, (completeIllegal s).irq = s.ie)
    ∧ (∀ (s : State) (w : Word) (st : Bool), s.phase = .busy w st → (s.latency = 0 ∨ s.host = []) →
        ∃ t, step s = .next t ∧ t.phase = .idle ∧ t.irq = s.ie)
    ∧ (∀ (P : Config.Params) (s : State), (hostOp P s (.write 0x010 8 0x2)).irq = false)
    ∧ (∀ (P : Config.Params) (s : State) (w : Word), s.phase = .idle → (hostOp P s (.write 0x018 8 w)).irq = false)
    ∧ (∀ (P : Config.Params) (s : State),
        (hostOp P s (.write 0x008 8 0)).irq = false ∧ (hostOp P s (.write 0x008 8 0)).done = s.done)
    ∧ ∀ (P : Config.Params) (s : State),
        (hostOp P s (.write 0x008 8 0x2)).irq = false ∧ (hostOp P s .powerOn).irq = false

/-! ## The whole machine -/

/-- R298: no step faults or is refused, so no run ever stops. -/
def Obligations.NoRunStops : Prop := ∀ s : State, NeverStops s

/-- The reset state has the invariant. -/
def Obligations.ResetHasInvariant : Prop := State.reset.Inv Config.hw

/-- Every step keeps the invariant: the memory stays canonical and inside the buffers (R34, R78), OFFS stays consistent (R28),
the counts of EMBED and EXTRACT fit (R239), and a command in flight is the word in CMD with DONE = 0 (R271). -/
def Obligations.StepKeepsInvariant : Prop :=
  ∀ s t : State, s.Inv Config.hw → step s = .next t → t.Inv Config.hw

/-- R331, R272: from any state with a command in flight the engine is Idle again within one step more than the latency allows,
whatever the host does; how the latency counts host steps is the model's choice (log 4). -/
def Obligations.BusyEndsWithinLatency : Prop :=
  ∀ s : State, s.busy = true → ∃ n t, n ≤ s.latency + 1 ∧ Sys2Proof.core.run n s = .next t ∧ t.busy = false
end

