-- ==== Sys2Proof/Laws/Banks.lean ====
section
/-! SUPPORT. Laws of the sixteen-element banks: reading what was built or written, equality by elements, and the row-major
matrix view. -/

namespace Sys2Proof.Laws

open Sys2Proof.Machine

variable {α : Type}

@[simp] theorem bankGet_bankOf (f : Fin 16 → α) (i : Fin 16) : bankGet (bankOf f) i = f i := by
  fin_cases i <;> rfl

@[simp] theorem bankOf_bankGet (b : Bank α) : bankOf (bankGet b) = b := rfl

theorem bank_ext {b c : Bank α} (h : ∀ i, bankGet b i = bankGet c i) : b = c := by
  rw [← bankOf_bankGet b, ← bankOf_bankGet c, funext h]

@[simp] theorem bankGet_bankSet_same (b : Bank α) (i : Fin 16) (v : α) : bankGet (bankSet b i v) i = v := by
  simp [bankSet]

theorem bankGet_bankSet_ne (b : Bank α) {i j : Fin 16} (v : α) (h : j ≠ i) :
    bankGet (bankSet b i v) j = bankGet b j := by
  simp [bankSet, h]

@[simp] theorem bankGet_bankFill (v : α) (i : Fin 16) : bankGet (bankFill v) i = v := by
  simp [bankFill]

@[simp] theorem rowOf_flatIndex (r c : Fin 4) : rowOf (flatIndex r c) = r := by
  ext; simp only [rowOf, flatIndex]; omega

@[simp] theorem colOf_flatIndex (r c : Fin 4) : colOf (flatIndex r c) = c := by
  ext; simp only [colOf, flatIndex]; omega

@[simp] theorem flatIndex_rowOf_colOf (j : Fin 16) : flatIndex (rowOf j) (colOf j) = j := by
  ext; simp only [rowOf, colOf, flatIndex]; omega

@[simp] theorem bankMatrix_matrixBank (M : Mat α) : bankMatrix (matrixBank M) = M := by
  funext r c; simp [bankMatrix, matrixBank]

@[simp] theorem matrixBank_bankMatrix (b : Bank α) : matrixBank (bankMatrix b) = b :=
  bank_ext fun i => by simp [bankMatrix, matrixBank]

theorem bankGet_matrixBank (M : Mat α) (r c : Fin 4) : bankGet (matrixBank M) (flatIndex r c) = M r c := by
  simp [matrixBank]

end Sys2Proof.Laws
end

