-- ==== Sys2Proof/Laws/Bytes.lean ====
section
/-! SUPPORT. Laws of the byte order. -/

namespace Sys2Proof.Laws

open Sys2Proof.Machine

@[simp] theorem littleBytes_length (n : Nat) (w : Word) : (littleBytes n w).length = n := by simp [littleBytes]

theorem littleBytes_get (n k : Nat) (w : Word) (h : k < n) : (littleBytes n w)[k]? = some (w.extractLsb' (8 * k) 8) := by
  simp [littleBytes, h]

/-- Byte k of the assembled value is the k-th byte of the list. -/
theorem ofLittleBytes_get (bs : List Byte) (k : Nat) (b : Byte) (hk : k < 8) (h : bs[k]? = some b) :
    (ofLittleBytes bs).extractLsb' (8 * k) 8 = b := by
  induction bs generalizing k with
  | nil => simp at h
  | cons c bs ih =>
    apply BitVec.eq_of_getLsbD_eq
    intro i hi
    cases k with
    | zero =>
      obtain rfl : c = b := by simpa using h
      simp [ofLittleBytes, hi, show i < 64 by omega]
    | succ k =>
      have := congrArg (fun v => BitVec.getLsbD v i) (ih k (by omega) (by simpa using h))
      simp only [BitVec.getLsbD_extractLsb', hi, decide_true, Bool.true_and] at this
      rw [← this]
      have e : 8 * (k + 1) + i = 8 * k + i + 8 := by omega
      have z : c.getLsbD (8 * k + i + 8) = false := BitVec.getLsbD_of_ge _ _ (by omega)
      have l : 8 * k + i + 8 < 64 := by omega
      rw [BitVec.getLsbD_extractLsb', e, ofLittleBytes, BitVec.getLsbD_or, BitVec.getLsbD_shiftLeft,
        BitVec.getLsbD_setWidth, z]
      simp [hi, l]

end Sys2Proof.Laws
end

