-- ==== Sys2Proof/Laws/Decode.lean ====
section
/-! SUPPORT. Laws of the decoder: its two fields as numbers, and the opcode map against the encoder's. -/

namespace Sys2Proof.Laws

theorem rsvdField_toNat (w : Word) : (rsvdField w).toNat = w.toNat / 256 := by
  simp only [rsvdField, BitVec.extractLsb'_toNat, Nat.shiftRight_eq_div_pow]
  have := w.isLt
  omega

theorem opcodeField_toNat (w : Word) : (opcodeField w).toNat = w.toNat % 256 := by
  simp [opcodeField, BitVec.extractLsb'_toNat]

theorem rsvdField_eq_zero (w : Word) : rsvdField w = 0 ↔ w.toNat < 256 := by
  rw [← BitVec.toNat_inj, rsvdField_toNat]; simp

/-- The opcode map answers exactly the command that has the opcode. -/
theorem decodeOpcode_eq_some (op : BitVec 8) (i : Instr) : decodeOpcode op = some i ↔ op = opcode i := by
  constructor
  · intro h
    unfold decodeOpcode at h
    split at h <;> first | (cases h; done) | skip
    all_goals (rename_i e; cases h; exact BitVec.eq_of_toNat_eq e)
  · rintro rfl; cases i <;> rfl

@[simp] theorem opcodeField_encode (i : Instr) : opcodeField (encode i) = opcode i := by cases i <;> rfl

@[simp] theorem rsvdField_encode (i : Instr) : rsvdField (encode i) = 0 := by cases i <;> rfl

end Sys2Proof.Laws
end

