-- ==== Sys2Proof/Laws/State.lean ====
section
/-! SUPPORT. The state updates of the command life cycle, field by field: one lemma per field of State for each update, so that
no later proof unfolds a record update. -/

namespace Sys2Proof.Laws

open Sys2Proof.Machine

variable (s : State) (e : ErrorCode) (f : ResultFlags) (w : Word) (m : Memory)


/-! ## Completion (44_control.md R274) -/

@[simp] theorem complete_ie : (s.complete e f).ie = s.ie := rfl
@[simp] theorem complete_strict : (s.complete e f).strict = s.strict := rfl
@[simp] theorem complete_done : (s.complete e f).done = true := rfl
@[simp] theorem complete_err : (s.complete e f).err = e := rfl
@[simp] theorem complete_flags : (s.complete e f).flags = f := rfl
@[simp] theorem complete_accerr : (s.complete e f).accerr = s.accerr := rfl
@[simp] theorem complete_busywr : (s.complete e f).busywr = s.busywr := rfl
@[simp] theorem complete_cmd : (s.complete e f).cmd = s.cmd := rfl
@[simp] theorem complete_arg : (s.complete e f).arg = s.arg := rfl
@[simp] theorem complete_offs : (s.complete e f).offs = s.offs := rfl
@[simp] theorem complete_npix : (s.complete e f).npix = s.npix := rfl
@[simp] theorem complete_msgLen : (s.complete e f).msgLen = s.msgLen := rfl
@[simp] theorem complete_metaLen : (s.complete e f).metaLen = s.metaLen := rfl
@[simp] theorem complete_xmsgLen : (s.complete e f).xmsgLen = s.xmsgLen := rfl
@[simp] theorem complete_xmetaLen : (s.complete e f).xmetaLen = s.xmetaLen := rfl
@[simp] theorem complete_xpix : (s.complete e f).xpix = s.xpix := rfl
@[simp] theorem complete_chVal : (s.complete e f).chVal = s.chVal := rfl
@[simp] theorem complete_chPat : (s.complete e f).chPat = s.chPat := rfl
@[simp] theorem complete_pixR : (s.complete e f).pixR = s.pixR := rfl
@[simp] theorem complete_pixG : (s.complete e f).pixG = s.pixG := rfl
@[simp] theorem complete_pixB : (s.complete e f).pixB = s.pixB := rfl
@[simp] theorem complete_pixPatLo : (s.complete e f).pixPatLo = s.pixPatLo := rfl
@[simp] theorem complete_pixPatHi : (s.complete e f).pixPatHi = s.pixPatHi := rfl
@[simp] theorem complete_pin : (s.complete e f).pin = s.pin := rfl
@[simp] theorem complete_seed : (s.complete e f).seed = s.seed := rfl
@[simp] theorem complete_skey : (s.complete e f).skey = s.skey := rfl
@[simp] theorem complete_seedOut : (s.complete e f).seedOut = s.seedOut := rfl
@[simp] theorem complete_vec : (s.complete e f).vec = s.vec := rfl
@[simp] theorem complete_mat : (s.complete e f).mat = s.mat := rfl
@[simp] theorem complete_mem : (s.complete e f).mem = s.mem := rfl
@[simp] theorem complete_phase : (s.complete e f).phase = .idle := rfl
@[simp] theorem complete_latency : (s.complete e f).latency = s.latency := rfl
@[simp] theorem complete_host : (s.complete e f).host = s.host := rfl
@[simp] theorem complete_rdata : (s.complete e f).rdata = s.rdata := rfl
@[simp] theorem complete_draws : (s.complete e f).draws = s.draws := rfl

/-! ## Issue (44_control.md R271) -/

@[simp] theorem issue_ie : (s.issue w).ie = s.ie := rfl
@[simp] theorem issue_strict : (s.issue w).strict = s.strict := rfl
@[simp] theorem issue_done : (s.issue w).done = false := rfl
@[simp] theorem issue_err : (s.issue w).err = s.err := rfl
@[simp] theorem issue_flags : (s.issue w).flags = s.flags := rfl
@[simp] theorem issue_accerr : (s.issue w).accerr = s.accerr := rfl
@[simp] theorem issue_busywr : (s.issue w).busywr = s.busywr := rfl
@[simp] theorem issue_cmd : (s.issue w).cmd = w := rfl
@[simp] theorem issue_arg : (s.issue w).arg = s.arg := rfl
@[simp] theorem issue_offs : (s.issue w).offs = s.offs := rfl
@[simp] theorem issue_npix : (s.issue w).npix = s.npix := rfl
@[simp] theorem issue_msgLen : (s.issue w).msgLen = s.msgLen := rfl
@[simp] theorem issue_metaLen : (s.issue w).metaLen = s.metaLen := rfl
@[simp] theorem issue_xmsgLen : (s.issue w).xmsgLen = s.xmsgLen := rfl
@[simp] theorem issue_xmetaLen : (s.issue w).xmetaLen = s.xmetaLen := rfl
@[simp] theorem issue_xpix : (s.issue w).xpix = s.xpix := rfl
@[simp] theorem issue_chVal : (s.issue w).chVal = s.chVal := rfl
@[simp] theorem issue_chPat : (s.issue w).chPat = s.chPat := rfl
@[simp] theorem issue_pixR : (s.issue w).pixR = s.pixR := rfl
@[simp] theorem issue_pixG : (s.issue w).pixG = s.pixG := rfl
@[simp] theorem issue_pixB : (s.issue w).pixB = s.pixB := rfl
@[simp] theorem issue_pixPatLo : (s.issue w).pixPatLo = s.pixPatLo := rfl
@[simp] theorem issue_pixPatHi : (s.issue w).pixPatHi = s.pixPatHi := rfl
@[simp] theorem issue_pin : (s.issue w).pin = s.pin := rfl
@[simp] theorem issue_seed : (s.issue w).seed = s.seed := rfl
@[simp] theorem issue_skey : (s.issue w).skey = s.skey := rfl
@[simp] theorem issue_seedOut : (s.issue w).seedOut = s.seedOut := rfl
@[simp] theorem issue_vec : (s.issue w).vec = s.vec := rfl
@[simp] theorem issue_mat : (s.issue w).mat = s.mat := rfl
@[simp] theorem issue_mem : (s.issue w).mem = s.mem := rfl
@[simp] theorem issue_phase : (s.issue w).phase = .busy w s.strict := rfl
@[simp] theorem issue_latency : (s.issue w).latency = Config.latency s.draws := rfl
@[simp] theorem issue_host : (s.issue w).host = s.host := rfl
@[simp] theorem issue_rdata : (s.issue w).rdata = s.rdata := rfl
@[simp] theorem issue_draws : (s.issue w).draws = s.draws := rfl

/-! ## ACCERR set (20_memory.md R73) -/

@[simp] theorem setAccErr_ie : (s.setAccErr).ie = s.ie := rfl
@[simp] theorem setAccErr_strict : (s.setAccErr).strict = s.strict := rfl
@[simp] theorem setAccErr_done : (s.setAccErr).done = s.done := rfl
@[simp] theorem setAccErr_err : (s.setAccErr).err = s.err := rfl
@[simp] theorem setAccErr_flags : (s.setAccErr).flags = s.flags := rfl
@[simp] theorem setAccErr_accerr : (s.setAccErr).accerr = true := rfl
@[simp] theorem setAccErr_busywr : (s.setAccErr).busywr = s.busywr := rfl
@[simp] theorem setAccErr_cmd : (s.setAccErr).cmd = s.cmd := rfl
@[simp] theorem setAccErr_arg : (s.setAccErr).arg = s.arg := rfl
@[simp] theorem setAccErr_offs : (s.setAccErr).offs = s.offs := rfl
@[simp] theorem setAccErr_npix : (s.setAccErr).npix = s.npix := rfl
@[simp] theorem setAccErr_msgLen : (s.setAccErr).msgLen = s.msgLen := rfl
@[simp] theorem setAccErr_metaLen : (s.setAccErr).metaLen = s.metaLen := rfl
@[simp] theorem setAccErr_xmsgLen : (s.setAccErr).xmsgLen = s.xmsgLen := rfl
@[simp] theorem setAccErr_xmetaLen : (s.setAccErr).xmetaLen = s.xmetaLen := rfl
@[simp] theorem setAccErr_xpix : (s.setAccErr).xpix = s.xpix := rfl
@[simp] theorem setAccErr_chVal : (s.setAccErr).chVal = s.chVal := rfl
@[simp] theorem setAccErr_chPat : (s.setAccErr).chPat = s.chPat := rfl
@[simp] theorem setAccErr_pixR : (s.setAccErr).pixR = s.pixR := rfl
@[simp] theorem setAccErr_pixG : (s.setAccErr).pixG = s.pixG := rfl
@[simp] theorem setAccErr_pixB : (s.setAccErr).pixB = s.pixB := rfl
@[simp] theorem setAccErr_pixPatLo : (s.setAccErr).pixPatLo = s.pixPatLo := rfl
@[simp] theorem setAccErr_pixPatHi : (s.setAccErr).pixPatHi = s.pixPatHi := rfl
@[simp] theorem setAccErr_pin : (s.setAccErr).pin = s.pin := rfl
@[simp] theorem setAccErr_seed : (s.setAccErr).seed = s.seed := rfl
@[simp] theorem setAccErr_skey : (s.setAccErr).skey = s.skey := rfl
@[simp] theorem setAccErr_seedOut : (s.setAccErr).seedOut = s.seedOut := rfl
@[simp] theorem setAccErr_vec : (s.setAccErr).vec = s.vec := rfl
@[simp] theorem setAccErr_mat : (s.setAccErr).mat = s.mat := rfl
@[simp] theorem setAccErr_mem : (s.setAccErr).mem = s.mem := rfl
@[simp] theorem setAccErr_phase : (s.setAccErr).phase = s.phase := rfl
@[simp] theorem setAccErr_latency : (s.setAccErr).latency = s.latency := rfl
@[simp] theorem setAccErr_host : (s.setAccErr).host = s.host := rfl
@[simp] theorem setAccErr_rdata : (s.setAccErr).rdata = s.rdata := rfl
@[simp] theorem setAccErr_draws : (s.setAccErr).draws = s.draws := rfl

/-! ## BUSYWR set (70_reset_and_hazards.md R326) -/

@[simp] theorem setBusyWr_ie : (s.setBusyWr).ie = s.ie := rfl
@[simp] theorem setBusyWr_strict : (s.setBusyWr).strict = s.strict := rfl
@[simp] theorem setBusyWr_done : (s.setBusyWr).done = s.done := rfl
@[simp] theorem setBusyWr_err : (s.setBusyWr).err = s.err := rfl
@[simp] theorem setBusyWr_flags : (s.setBusyWr).flags = s.flags := rfl
@[simp] theorem setBusyWr_accerr : (s.setBusyWr).accerr = s.accerr := rfl
@[simp] theorem setBusyWr_busywr : (s.setBusyWr).busywr = true := rfl
@[simp] theorem setBusyWr_cmd : (s.setBusyWr).cmd = s.cmd := rfl
@[simp] theorem setBusyWr_arg : (s.setBusyWr).arg = s.arg := rfl
@[simp] theorem setBusyWr_offs : (s.setBusyWr).offs = s.offs := rfl
@[simp] theorem setBusyWr_npix : (s.setBusyWr).npix = s.npix := rfl
@[simp] theorem setBusyWr_msgLen : (s.setBusyWr).msgLen = s.msgLen := rfl
@[simp] theorem setBusyWr_metaLen : (s.setBusyWr).metaLen = s.metaLen := rfl
@[simp] theorem setBusyWr_xmsgLen : (s.setBusyWr).xmsgLen = s.xmsgLen := rfl
@[simp] theorem setBusyWr_xmetaLen : (s.setBusyWr).xmetaLen = s.xmetaLen := rfl
@[simp] theorem setBusyWr_xpix : (s.setBusyWr).xpix = s.xpix := rfl
@[simp] theorem setBusyWr_chVal : (s.setBusyWr).chVal = s.chVal := rfl
@[simp] theorem setBusyWr_chPat : (s.setBusyWr).chPat = s.chPat := rfl
@[simp] theorem setBusyWr_pixR : (s.setBusyWr).pixR = s.pixR := rfl
@[simp] theorem setBusyWr_pixG : (s.setBusyWr).pixG = s.pixG := rfl
@[simp] theorem setBusyWr_pixB : (s.setBusyWr).pixB = s.pixB := rfl
@[simp] theorem setBusyWr_pixPatLo : (s.setBusyWr).pixPatLo = s.pixPatLo := rfl
@[simp] theorem setBusyWr_pixPatHi : (s.setBusyWr).pixPatHi = s.pixPatHi := rfl
@[simp] theorem setBusyWr_pin : (s.setBusyWr).pin = s.pin := rfl
@[simp] theorem setBusyWr_seed : (s.setBusyWr).seed = s.seed := rfl
@[simp] theorem setBusyWr_skey : (s.setBusyWr).skey = s.skey := rfl
@[simp] theorem setBusyWr_seedOut : (s.setBusyWr).seedOut = s.seedOut := rfl
@[simp] theorem setBusyWr_vec : (s.setBusyWr).vec = s.vec := rfl
@[simp] theorem setBusyWr_mat : (s.setBusyWr).mat = s.mat := rfl
@[simp] theorem setBusyWr_mem : (s.setBusyWr).mem = s.mem := rfl
@[simp] theorem setBusyWr_phase : (s.setBusyWr).phase = s.phase := rfl
@[simp] theorem setBusyWr_latency : (s.setBusyWr).latency = s.latency := rfl
@[simp] theorem setBusyWr_host : (s.setBusyWr).host = s.host := rfl
@[simp] theorem setBusyWr_rdata : (s.setBusyWr).rdata = s.rdata := rfl
@[simp] theorem setBusyWr_draws : (s.setBusyWr).draws = s.draws := rfl

/-! ## Reset over given buffers (10_state.md R37) -/

@[simp] theorem resetOver_ie : (s.resetOver m).ie = State.reset.ie := rfl
@[simp] theorem resetOver_strict : (s.resetOver m).strict = State.reset.strict := rfl
@[simp] theorem resetOver_done : (s.resetOver m).done = State.reset.done := rfl
@[simp] theorem resetOver_err : (s.resetOver m).err = State.reset.err := rfl
@[simp] theorem resetOver_flags : (s.resetOver m).flags = State.reset.flags := rfl
@[simp] theorem resetOver_accerr : (s.resetOver m).accerr = State.reset.accerr := rfl
@[simp] theorem resetOver_busywr : (s.resetOver m).busywr = State.reset.busywr := rfl
@[simp] theorem resetOver_cmd : (s.resetOver m).cmd = State.reset.cmd := rfl
@[simp] theorem resetOver_arg : (s.resetOver m).arg = State.reset.arg := rfl
@[simp] theorem resetOver_offs : (s.resetOver m).offs = State.reset.offs := rfl
@[simp] theorem resetOver_npix : (s.resetOver m).npix = State.reset.npix := rfl
@[simp] theorem resetOver_msgLen : (s.resetOver m).msgLen = State.reset.msgLen := rfl
@[simp] theorem resetOver_metaLen : (s.resetOver m).metaLen = State.reset.metaLen := rfl
@[simp] theorem resetOver_xmsgLen : (s.resetOver m).xmsgLen = State.reset.xmsgLen := rfl
@[simp] theorem resetOver_xmetaLen : (s.resetOver m).xmetaLen = State.reset.xmetaLen := rfl
@[simp] theorem resetOver_xpix : (s.resetOver m).xpix = State.reset.xpix := rfl
@[simp] theorem resetOver_chVal : (s.resetOver m).chVal = State.reset.chVal := rfl
@[simp] theorem resetOver_chPat : (s.resetOver m).chPat = State.reset.chPat := rfl
@[simp] theorem resetOver_pixR : (s.resetOver m).pixR = State.reset.pixR := rfl
@[simp] theorem resetOver_pixG : (s.resetOver m).pixG = State.reset.pixG := rfl
@[simp] theorem resetOver_pixB : (s.resetOver m).pixB = State.reset.pixB := rfl
@[simp] theorem resetOver_pixPatLo : (s.resetOver m).pixPatLo = State.reset.pixPatLo := rfl
@[simp] theorem resetOver_pixPatHi : (s.resetOver m).pixPatHi = State.reset.pixPatHi := rfl
@[simp] theorem resetOver_pin : (s.resetOver m).pin = State.reset.pin := rfl
@[simp] theorem resetOver_seed : (s.resetOver m).seed = State.reset.seed := rfl
@[simp] theorem resetOver_skey : (s.resetOver m).skey = State.reset.skey := rfl
@[simp] theorem resetOver_seedOut : (s.resetOver m).seedOut = State.reset.seedOut := rfl
@[simp] theorem resetOver_vec : (s.resetOver m).vec = State.reset.vec := rfl
@[simp] theorem resetOver_mat : (s.resetOver m).mat = State.reset.mat := rfl
@[simp] theorem resetOver_mem : (s.resetOver m).mem = m := rfl
@[simp] theorem resetOver_phase : (s.resetOver m).phase = State.reset.phase := rfl
@[simp] theorem resetOver_latency : (s.resetOver m).latency = State.reset.latency := rfl
@[simp] theorem resetOver_host : (s.resetOver m).host = s.host := rfl
@[simp] theorem resetOver_rdata : (s.resetOver m).rdata = s.rdata := rfl
@[simp] theorem resetOver_draws : (s.resetOver m).draws = s.draws := rfl

theorem complete_busy : (s.complete e f).busy = false := rfl

theorem issue_busy : (s.issue w).busy = true := rfl

theorem resetOver_busy : (s.resetOver m).busy = false := rfl

/-- Completing twice is completing with the last code and flags. -/
theorem complete_complete (e' : ErrorCode) (f' : ResultFlags) : (s.complete e f).complete e' f' = s.complete e' f' := rfl

end Sys2Proof.Laws
end

