-- ==== Sys2Proof/Laws/Host.lean ====
section
/-! SUPPORT. Laws of the host's side: what an access reaches, and what each host operation does to the state, once. -/

namespace Sys2Proof.Laws

open Sys2Proof.Machine
open Config (Params)

/-! ## Addresses -/

theorem offset_lt (r : RegName) : r.offset < 0x400 := by
  cases r <;> simp only [RegName.offset] <;> omega

theorem offset_mod (r : RegName) : r.offset % 8 = 0 := by
  cases r <;> simp only [RegName.offset] <;> omega

/-- A register's own offset names it. -/
theorem regAt_offset (r : RegName) : regAt r.offset = some r := by
  cases r with
  | pin i => fin_cases i <;> rfl
  | seed i => fin_cases i <;> rfl
  | skey i => fin_cases i <;> rfl
  | seedOut i => fin_cases i <;> rfl
  | vec i => fin_cases i <;> rfl
  | mat r c => fin_cases r <;> fin_cases c <;> rfl
  | _ => rfl

theorem accessTarget_reg (P : Params) (r : RegName) : accessTarget P r.offset 8 = some (.reg r) := by
  simp [accessTarget, offset_lt, offset_mod, regAt_offset]

@[simp] theorem bitOffset_toNat (r : RegName) : (BitVec.ofNat 22 r.offset).toNat = r.offset := by
  have := offset_lt r
  simp only [BitVec.toNat_ofNat]; omega

/-- A 64-bit host read at a register's offset. -/
theorem hostOp_read_reg (P : Params) (s : State) (r : RegName) :
    hostOp P s (.read (BitVec.ofNat 22 r.offset) 8) = { s with rdata := readValue P s (some (.reg r)) } := by
  simp only [hostOp, bitOffset_toNat, hostRead, accessTarget_reg]

/-- A 64-bit host write at a register's offset. -/
theorem hostOp_write_reg (P : Params) (s : State) (r : RegName) (v : Word) :
    hostOp P s (.write (BitVec.ofNat 22 r.offset) 8 v) = writeReg P s v r := by
  simp only [hostOp, bitOffset_toNat, hostWrite, accessTarget_reg]

/-! ## What a target says of an access -/

/-- What an admissible access reaches is a register at its own offset, or bytes of a buffer, naturally aligned. -/
theorem accessTarget_cases {P : Params} {a n : Nat} {t : Target} (h : accessTarget P a n = some t) :
    (n = 8 ∧ a < 0x400 ∧ ∃ r, regAt a = some r ∧ t = .reg r)
      ∨ ((n = 1 ∨ n = 2 ∨ n = 4 ∨ n = 8) ∧ a % n = 0 ∧ 0x400 ≤ a ∧ inSomeBuffer P a n = true ∧ t = .bytes a n) := by
  unfold accessTarget at h
  split_ifs at h with h1 h2 h3 h4 h5
  · left
    split at h
    · rename_i r hr; simp only [Option.some.injEq] at h; exact ⟨h4, h3, r, hr, h.symm⟩
    · cases h
  · right
    simp only [Option.some.injEq] at h
    exact ⟨by omega, by omega, by omega, h5, h.symm⟩

/-! ## Host writes and reads, field by field -/

/-- What a host read can do: the read data return, and ACCERR where the access is inadmissible. -/
theorem hostRead_eq (P : Params) (s : State) (a n : Nat) :
    hostRead P s a n
      = { s with rdata := readValue P s (accessTarget P a n), accerr := s.accerr || (accessTarget P a n).isNone } := by
  unfold hostRead
  split <;> rename_i h <;> rw [h] <;> simp [State.setAccErr, readValue]

/-- What a host write can do, once: nothing but ACCERR; a CTRL or STATUS write; nothing but BUSYWR while Busy; and while Idle
an issue, a register's fields or a run of buffer bytes. -/
theorem hostWrite_cases (P : Params) (s : State) (a n : Nat) (v : Word) :
    (accessTarget P a n = none ∧ hostWrite P s a n v = s.setAccErr)
      ∨ (accessTarget P a n = some (.reg .ctrl) ∧ hostWrite P s a n v = writeCtrl P s v)
      ∨ (accessTarget P a n = some (.reg .status) ∧ hostWrite P s a n v = writeStatus s v)
      ∨ (s.busy = true ∧ hostWrite P s a n v = s.setBusyWr)
      ∨ (s.busy = false ∧ accessTarget P a n = some (.reg .cmd) ∧ hostWrite P s a n v = s.issue v)
      ∨ (s.busy = false ∧ (∃ r, accessTarget P a n = some (.reg r) ∧ hostWrite P s a n v = storeReg s v r))
      ∨ (s.busy = false ∧ accessTarget P a n = some (.bytes a n)
          ∧ hostWrite P s a n v = { s with mem := Memory.writeList s.mem a (littleBytes n v) }) := by
  cases h : accessTarget P a n with
  | none => left; simp [hostWrite, h]
  | some t =>
    right
    cases t with
    | bytes b m =>
      have hb : b = a ∧ m = n := by
        rcases accessTarget_cases h with ⟨-, -, r, -, hr⟩ | ⟨-, -, -, -, hr⟩
        · cases hr
        · cases hr; exact ⟨rfl, rfl⟩
      obtain ⟨rfl, rfl⟩ := hb
      cases hs : s.busy <;> simp [hostWrite, h, hs]
    | reg r =>
      cases hs : s.busy <;> cases r <;> simp [hostWrite, h, hs, writeReg]

end Sys2Proof.Laws
end

