-- ==== Sys2Proof/Laws/Memory.lean ====
section
/-! SUPPORT. Laws of the memory: a read after a write, the canonical form kept by every operation, and equality of canonical
memories by reads. -/

namespace Sys2Proof.Laws

open Sys2Proof.Machine

theorem wf_nil : Memory.wf [] = true := rfl

theorem wf_cons {c : Host.Cell} {m : Memory} :
    Memory.wf (c :: m) = true ↔ (∀ d ∈ m, c.1 < d.1) ∧ Memory.wf m = true := by
  simp [Memory.wf, List.all_eq_true]

@[simp] theorem read?_nil (a : Nat) : Memory.read? [] a = none := rfl

theorem read?_cons (c : Host.Cell) (m : Memory) (a : Nat) :
    Memory.read? (c :: m) a = if a = c.1 then some c.2 else Memory.read? m a := rfl

/-- Nothing is read at an offset that no entry has. -/
theorem read?_eq_none {m : Memory} {a : Nat} (h : ∀ c ∈ m, c.1 ≠ a) : Memory.read? m a = none := by
  induction m with
  | nil => rfl
  | cons c m ih =>
    rw [read?_cons, if_neg (Ne.symm (h c (by simp))), ih fun d hd => h d (by simp [hd])]

/-- What is read somewhere is listed there. -/
theorem mem_of_read? {m : Memory} {a : Nat} {v : Byte} (h : Memory.read? m a = some v) : (a, v) ∈ m := by
  induction m with
  | nil => simp at h
  | cons c m ih =>
    rw [read?_cons] at h
    split at h
    · rename_i e; subst e; simp at h; subst h; simp
    · simp [ih h]

theorem read?_of_mem {m : Memory} {c : Host.Cell} (hw : Memory.wf m = true) (h : c ∈ m) :
    Memory.read? m c.1 = some c.2 := by
  induction m with
  | nil => simp at h
  | cons d m ih =>
    rw [wf_cons] at hw
    rw [read?_cons]
    rcases List.mem_cons.1 h with rfl | h
    · simp
    · rw [if_neg (by have := hw.1 c h; omega), ih hw.2 h]

@[simp] theorem read?_write_same (m : Memory) (a : Nat) (v : Byte) :
    Memory.read? (Memory.write m a v) a = some v := by
  induction m with
  | nil => simp [Memory.write, read?_cons]
  | cons c m ih =>
    unfold Memory.write
    split
    · simp [read?_cons]
    · split
      · simp [read?_cons]
      · rename_i h; rw [read?_cons, if_neg h, ih]

theorem read?_write_ne (m : Memory) {a b : Nat} (v : Byte) (h : b ≠ a) :
    Memory.read? (Memory.write m a v) b = Memory.read? m b := by
  induction m with
  | nil => simp [Memory.write, read?_cons, h]
  | cons c m ih =>
    unfold Memory.write
    split
    · simp [read?_cons, h]
    · split
      · rename_i e; simp [read?_cons, h, ← e]
      · rw [read?_cons, read?_cons, ih]

/-- One byte written, everywhere at once. -/
theorem read?_write (m : Memory) (a b : Nat) (v : Byte) :
    Memory.read? (Memory.write m a v) b = if b = a then some v else Memory.read? m b := by
  split
  · rename_i h; subst h; simp
  · rename_i h; exact read?_write_ne m v h

/-- Every entry after a write is the written one or an old one. -/
theorem mem_write {m : Memory} {a : Nat} {v : Byte} {c : Host.Cell} (h : c ∈ Memory.write m a v) :
    c = (a, v) ∨ c ∈ m := by
  induction m with
  | nil => simpa [Memory.write] using h
  | cons d m ih =>
    unfold Memory.write at h
    split at h
    · simpa using h
    · split at h
      · rcases List.mem_cons.1 h with h | h
        · exact .inl h
        · exact .inr (by simp [h])
      · rcases List.mem_cons.1 h with h | h
        · exact .inr (by simp [h])
        · rcases ih h with h | h
          · exact .inl h
          · exact .inr (by simp [h])

theorem write_wf {m : Memory} (a : Nat) (v : Byte) (h : Memory.wf m = true) : Memory.wf (Memory.write m a v) = true := by
  induction m with
  | nil => rfl
  | cons c m ih =>
    have h' := wf_cons.1 h
    unfold Memory.write
    split
    · rename_i hlt
      rw [wf_cons]
      refine ⟨fun d hd => ?_, h⟩
      rcases List.mem_cons.1 hd with rfl | hd
      · exact hlt
      · exact lt_trans hlt (h'.1 d hd)
    · split
      · rename_i e
        rw [wf_cons]
        exact ⟨fun d hd => by simpa [e] using h'.1 d hd, h'.2⟩
      · rw [wf_cons]
        refine ⟨fun d hd => ?_, ih h'.2⟩
        rcases mem_write hd with rfl | hd
        · dsimp only; omega
        · exact h'.1 d hd

theorem writeList_wf {m : Memory} (a : Nat) (vs : List Byte) (h : Memory.wf m = true) :
    Memory.wf (Memory.writeList m a vs) = true := by
  induction vs generalizing m a with
  | nil => exact h
  | cons v vs ih => exact ih _ (write_wf a v h)

/-- A run of bytes written, everywhere at once. -/
theorem read?_writeList (m : Memory) (a b : Nat) (vs : List Byte) :
    Memory.read? (Memory.writeList m a vs) b
      = if a ≤ b then (match vs[b - a]? with | some v => some v | none => Memory.read? m b) else Memory.read? m b := by
  induction vs generalizing m a with
  | nil => simp [Memory.writeList]
  | cons v vs ih =>
    rw [Memory.writeList, ih, read?_write]
    rcases Nat.lt_trichotomy b a with h | h | h
    · simp [show ¬ a ≤ b by omega, show ¬ a + 1 ≤ b by omega, show b ≠ a by omega]
    · subst h; simp
    · rw [if_pos (by omega), if_neg (by omega), if_pos (by omega), show b - a = (b - (a + 1)) + 1 by omega,
        List.getElem?_cons_succ]

theorem read?_writeList_outside (m : Memory) {a b : Nat} (vs : List Byte) (h : b < a ∨ a + vs.length ≤ b) :
    Memory.read? (Memory.writeList m a vs) b = Memory.read? m b := by
  rw [read?_writeList]
  split
  · rw [List.getElem?_eq_none (by omega)]
  · rfl

theorem read?_writeList_inside (m : Memory) (a k : Nat) (vs : List Byte) (h : k < vs.length) :
    Memory.read? (Memory.writeList m a vs) (a + k) = some vs[k] := by
  rw [read?_writeList, if_pos (by omega), show a + k - a = k by omega, List.getElem?_eq_getElem h]

/-- Every entry after a run of writes lies in the run or is an old one. -/
theorem mem_writeList {m : Memory} {a : Nat} {vs : List Byte} {c : Host.Cell} (h : c ∈ Memory.writeList m a vs) :
    (a ≤ c.1 ∧ c.1 < a + vs.length) ∨ c ∈ m := by
  induction vs generalizing m a with
  | nil => exact .inr h
  | cons v vs ih =>
    rcases ih h with h | h
    · exact .inl (by simp only [List.length_cons]; omega)
    · rcases mem_write h with rfl | h
      · exact .inl (by simp)
      · exact .inr h

theorem filter_wf {m : Memory} (p : Host.Cell → Bool) (h : Memory.wf m = true) : Memory.wf (m.filter p) = true := by
  induction m with
  | nil => rfl
  | cons c m ih =>
    rw [wf_cons] at h
    rw [List.filter_cons]
    split
    · exact wf_cons.2 ⟨fun d hd => h.1 d (List.mem_filter.1 hd).1, ih h.2⟩
    · exact ih h.2

theorem read?_filter (m : Memory) (f : Nat → Bool) (a : Nat) :
    Memory.read? (m.filter fun c => f c.1) a = if f a then Memory.read? m a else none := by
  induction m with
  | nil => simp
  | cons c m ih =>
    rw [List.filter_cons]
    by_cases hc : a = c.1
    · subst hc
      by_cases hf : f c.1 <;> simp [hf, read?_cons, ih]
    · by_cases hf : f c.1 <;> simp [hf, read?_cons, ih, hc]

theorem foldl_write_wf {m : Memory} (new : List Host.Cell) (h : Memory.wf m = true) :
    Memory.wf (new.foldl (fun m c => Memory.write m c.1 c.2) m) = true := by
  induction new generalizing m with
  | nil => exact h
  | cons c new ih => exact ih (write_wf c.1 c.2 h)

theorem read?_foldl_write {m new : Memory} (a : Nat) (h : Memory.wf new = true) :
    Memory.read? (new.foldl (fun m c => Memory.write m c.1 c.2) m) a
      = match Memory.read? new a with | some v => some v | none => Memory.read? m a := by
  induction new generalizing m with
  | nil => rfl
  | cons c new ih =>
    rw [wf_cons] at h
    rw [List.foldl_cons, ih h.2, read?_cons, read?_write]
    by_cases hc : a = c.1
    · subst hc
      rw [read?_eq_none fun d hd => by have := h.1 d hd; omega]; simp
    · simp [hc]

theorem mem_foldl_write {m new : Memory} {c : Host.Cell}
    (h : c ∈ new.foldl (fun m c => Memory.write m c.1 c.2) m) : c ∈ new ∨ c ∈ m := by
  induction new generalizing m with
  | nil => exact .inr h
  | cons d new ih =>
    rcases ih h with h | h
    · exact .inl (by simp [h])
    · rcases mem_write h with h | h
      · exact .inl (by simp [h])
      · exact .inr h

theorem select_wf (f : Nat → Bool) {old : Memory} (new : Memory) (h : Memory.wf old = true) :
    Memory.wf (Memory.select f old new) = true :=
  foldl_write_wf _ (filter_wf _ h)

/-- The per-byte choice, everywhere at once. -/
theorem read?_select (f : Nat → Bool) {old new : Memory} (a : Nat) (h : Memory.wf new = true) :
    Memory.read? (Memory.select f old new) a = if f a then Memory.read? new a else Memory.read? old a := by
  rw [Memory.select, read?_foldl_write a (filter_wf _ h), read?_filter]
  have := read?_filter old (fun b => !f b) a
  rw [this]
  by_cases hf : f a
  · simp only [hf, if_true, Bool.not_true, Bool.false_eq_true, if_false]
    cases hr : Memory.read? new a <;> simp
  · simp [hf]

theorem mem_select {f : Nat → Bool} {old new : Memory} {c : Host.Cell} (h : c ∈ Memory.select f old new) :
    c ∈ new ∨ c ∈ old := by
  rcases mem_foldl_write h with h | h
  · exact .inl (List.mem_filter.1 h).1
  · exact .inr (List.mem_filter.1 h).1

/-- Canonical memories that read alike everywhere are equal. -/
theorem memory_ext {m n : Memory} (hm : Memory.wf m = true) (hn : Memory.wf n = true)
    (h : ∀ a, Memory.read? m a = Memory.read? n a) : m = n := by
  induction m generalizing n with
  | nil =>
    cases n with
    | nil => rfl
    | cons c n => have := h c.1; simp [read?_cons] at this
  | cons c m ih =>
    cases n with
    | nil => have := h c.1; simp [read?_cons] at this
    | cons d n =>
      have hm' := wf_cons.1 hm
      have hn' := wf_cons.1 hn
      have key : c = d := by
        have h1 := h c.1
        have h2 := h d.1
        rw [read?_cons, if_pos rfl] at h1
        rw [read?_cons d n d.1, if_pos rfl] at h2
        have m1 := mem_of_read? h1.symm
        have m2 := mem_of_read? h2
        rcases List.mem_cons.1 m1 with e | e
        · exact e
        · rcases List.mem_cons.1 m2 with e' | e'
          · exact e'.symm
          · have a1 := hn'.1 _ e
            have a2 := hm'.1 _ e'
            dsimp only at a1 a2; omega
      subst key
      congr 1
      refine ih hm'.2 hn'.2 fun a => ?_
      by_cases ha : a = c.1
      · subst ha
        rw [read?_eq_none fun d hd => by have := hm'.1 d hd; omega,
          read?_eq_none fun d hd => by have := hn'.1 d hd; omega]
      · have := h a
        rwa [read?_cons, read?_cons, if_neg ha, if_neg ha] at this

end Sys2Proof.Laws
end

