-- ==== Sys2Proof/Laws/Payload.lean ====
section
/-! SUPPORT. Laws of the payload unit: what the embedding loop writes, and what the extraction loop has read when it stops. -/

namespace Sys2Proof.Laws

open Sys2Proof.Machine

/-! ## Bytes as the engine reads them -/

theorem engineByte_of_read? {m : Memory} {a : Nat} {v : Byte} (d : Nat) (h : Memory.read? m a = some v) :
    engineByte d m a = v := by
  simp [engineByte, h]

theorem engineByte_congr {m n : Memory} {a : Nat} (d : Nat) (h : Memory.read? m a = Memory.read? n a) :
    engineByte d m a = engineByte d n a := by
  simp [engineByte, h]

theorem setLast_toNat (v : Byte) (x : Bool) : (setLast v x).toNat = v.toNat / 2 * 2 + x.toNat := by
  have := v.isLt
  cases x <;> simp [setLast] <;> omega

@[simp] theorem lastBit_setLast (v : Byte) (x : Bool) : lastBit (setLast v x) = x := by
  have h := setLast_toNat v x
  rw [lastBit, BitVec.getLsbD, Nat.testBit_zero, h]
  cases x <;> simp [Nat.add_mod]

/-! ## The embedding loop -/

theorem read?_embedBit (d : Nat) (m : Memory) (a b : Nat) (x : Bool) :
    Memory.read? (embedBit d m a x) b = if b = a then some (setLast (engineByte d m a) x) else Memory.read? m b :=
  read?_write m a b _

theorem engineByte_embedBit_ne (d : Nat) (m : Memory) {a b : Nat} (x : Bool) (h : b ≠ a) :
    engineByte d (embedBit d m a x) b = engineByte d m b :=
  engineByte_congr d (by rw [read?_embedBit, if_neg h])

/-- The loop writes no byte but the blue bytes of the pixels that take a message bit and the green bytes of those that take a
metadata bit too. -/
theorem read?_embedLoop_frame (d n p : Nat) (msg met : List Bool) (m : Memory) (a : Nat)
    (hb : ∀ k, k < n → k < msg.length → a ≠ blueAt (p + k))
    (hg : ∀ k, k < n → k < msg.length → k < met.length → a ≠ greenAt (p + k)) :
    Memory.read? (embedLoop d n p msg met m) a = Memory.read? m a := by
  induction n generalizing p msg met m with
  | zero => rfl
  | succ n ih =>
    cases msg with
    | nil => rfl
    | cons x msg =>
      have b0 := hb 0 (by omega) (by simp)
      have bs : ∀ k, k < n → k < msg.length → a ≠ blueAt (p + 1 + k) := fun k h1 h2 => by
        have := hb (k + 1) (by omega) (by simpa using h2)
        rwa [show p + (k + 1) = p + 1 + k by omega] at this
      cases met with
      | nil =>
        rw [embedLoop, ih _ _ _ _ bs (fun k _ _ h => absurd h (by simp)), read?_embedBit, if_neg (by simpa using b0)]
      | cons y met =>
        have g0 := hg 0 (by omega) (by simp) (by simp)
        rw [embedLoop, ih _ _ _ _ bs (fun k h1 h2 h3 => by
            have := hg (k + 1) (by omega) (by simpa using h2) (by simpa using h3)
            rwa [show p + (k + 1) = p + 1 + k by omega] at this),
          read?_embedBit, if_neg (by simpa using g0), read?_embedBit, if_neg (by simpa using b0)]

/-- The blue byte of a visited pixel takes its message bit. -/
theorem read?_embedLoop_blue (d n p : Nat) (msg met : List Bool) (m : Memory) (k : Nat) (x : Bool) (hk : k < n)
    (hx : msg[k]? = some x) :
    Memory.read? (embedLoop d n p msg met m) (blueAt (p + k)) = some (setLast (engineByte d m (blueAt (p + k))) x) := by
  induction n generalizing p msg met m k with
  | zero => omega
  | succ n ih =>
    cases msg with
    | nil => simp at hx
    | cons z msg =>
      have ne : ∀ q, blueAt (p + k) ≠ greenAt q := fun q => by simp only [blueAt, greenAt, pixBase]; omega
      cases k with
      | zero =>
        simp only [List.getElem?_cons_zero, Option.some.injEq] at hx
        subst hx
        cases met with
        | nil =>
          rw [embedLoop, read?_embedLoop_frame, read?_embedBit, if_pos (by simp)]
          · rfl
          · intro k _ _; simp only [blueAt]; omega
          · intro k _ _ h; simp at h
        | cons y met =>
          rw [embedLoop, read?_embedLoop_frame, read?_embedBit, if_neg (ne p), read?_embedBit, if_pos (by simp)]
          · rfl
          · intro k _ _; simp only [blueAt]; omega
          · intro k _ _ _; exact ne _
      | succ k =>
        rw [List.getElem?_cons_succ] at hx
        have e : p + (k + 1) = p + 1 + k := by omega
        have nb : blueAt (p + 1 + k) ≠ blueAt p := by simp only [blueAt]; omega
        cases met with
        | nil => rw [embedLoop, e, ih _ _ _ _ _ (by omega) hx, engineByte_embedBit_ne _ _ _ nb]
        | cons y met =>
          rw [e] at ne
          rw [embedLoop, e, ih _ _ _ _ _ (by omega) hx, engineByte_embedBit_ne _ _ _ (ne p),
            engineByte_embedBit_ne _ _ _ nb]

/-- The green byte of a visited pixel takes its metadata bit while that stream lasts. -/
theorem read?_embedLoop_green (d n p : Nat) (msg met : List Bool) (m : Memory) (k : Nat) (y : Bool) (hk : k < n)
    (hm : k < msg.length) (hy : met[k]? = some y) :
    Memory.read? (embedLoop d n p msg met m) (greenAt (p + k)) = some (setLast (engineByte d m (greenAt (p + k))) y) := by
  induction n generalizing p msg met m k with
  | zero => omega
  | succ n ih =>
    cases msg with
    | nil => simp at hm
    | cons z msg =>
      cases met with
      | nil => simp at hy
      | cons w met =>
        have ne : ∀ q, greenAt (p + k) ≠ blueAt q := fun q => by simp only [blueAt, greenAt, pixBase]; omega
        cases k with
        | zero =>
          simp only [List.getElem?_cons_zero, Option.some.injEq] at hy
          subst hy
          rw [embedLoop, read?_embedLoop_frame, read?_embedBit, if_pos (by simp), engineByte_embedBit_ne]
          · rfl
          · exact ne p
          · intro k _ _; exact ne _
          · intro k _ _ _; simp only [greenAt]; omega
        | succ k =>
          rw [List.getElem?_cons_succ] at hy
          have e : p + (k + 1) = p + 1 + k := by omega
          have ng : greenAt (p + 1 + k) ≠ greenAt p := by simp only [greenAt]; omega
          rw [e] at ne
          rw [embedLoop, e, ih _ _ _ _ _ (by omega) (by simpa using hm) hy, engineByte_embedBit_ne _ _ _ ng,
            engineByte_embedBit_ne _ _ _ (ne p)]

theorem embedLoop_wf (d n p : Nat) (msg met : List Bool) {m : Memory} (h : Memory.wf m = true) :
    Memory.wf (embedLoop d n p msg met m) = true := by
  induction n generalizing p msg met m with
  | zero => exact h
  | succ n ih =>
    cases msg with
    | nil => exact h
    | cons x msg =>
      cases met with
      | nil => exact ih _ _ _ (write_wf _ _ h)
      | cons y met => exact ih _ _ _ (write_wf _ _ (write_wf _ _ h))

/-- Every entry after the loop is an old one or the green or blue byte of one of its pixels. -/
theorem mem_embedLoop {d n p : Nat} {msg met : List Bool} {m : Memory} {c : Host.Cell}
    (h : c ∈ embedLoop d n p msg met m) : c ∈ m ∨ ∃ k, k < n ∧ (c.1 = blueAt (p + k) ∨ c.1 = greenAt (p + k)) := by
  induction n generalizing p msg met m with
  | zero => exact .inl h
  | succ n ih =>
    have lift : (∃ k, k < n ∧ (c.1 = blueAt (p + 1 + k) ∨ c.1 = greenAt (p + 1 + k))) →
        ∃ k, k < n + 1 ∧ (c.1 = blueAt (p + k) ∨ c.1 = greenAt (p + k)) := fun ⟨k, hk, hc⟩ =>
      ⟨k + 1, by omega, by rwa [show p + (k + 1) = p + 1 + k by omega]⟩
    cases msg with
    | nil => exact .inl h
    | cons x msg =>
      cases met with
      | nil =>
        rcases ih h with h | h
        · rcases mem_write h with rfl | h
          · exact .inr ⟨0, by omega, .inl rfl⟩
          · exact .inl h
        · exact .inr (lift h)
      | cons y met =>
        rcases ih h with h | h
        · rcases mem_write h with rfl | h
          · exact .inr ⟨0, by omega, .inr rfl⟩
          · rcases mem_write h with rfl | h
            · exact .inr ⟨0, by omega, .inl rfl⟩
            · exact .inl h
        · exact .inr (lift h)

/-! ## The extraction loop -/

/-- The first n values of f. -/
def prefixOf (f : Nat → Bool) (n : Nat) : List Bool := (List.range n).map f

@[simp] theorem prefixOf_length (f : Nat → Bool) (n : Nat) : (prefixOf f n).length = n := by simp [prefixOf]

theorem prefixOf_succ (f : Nat → Bool) (n : Nat) : prefixOf f (n + 1) = prefixOf f n ++ [f n] := by
  simp [prefixOf, List.range_succ]

/-- An accumulator has taken n values of f, and none of its shorter prefixes ended in a marker. -/
structure Scanned (f : Nat → Bool) (acc : List Bool) (found : Bool) (n : Nat) : Prop where
  acc : acc = prefixOf f n
  before : ∀ m, m < n → endsInMarker (prefixOf f m) = false
  found : found = endsInMarker (prefixOf f n)

/-- What the extraction loop's accumulators hold at any time. -/
structure Scanning (green blue : Nat → Bool) (e : Extraction) : Prop where
  msg : Scanned blue e.msg e.msgFound e.pixels
  met : ∃ n, n ≤ e.pixels ∧ Scanned green e.met e.metFound n ∧ (e.metFound = false → n = e.pixels)

theorem scanned_append {f : Nat → Bool} {acc : List Bool} {n : Nat} (h : Scanned f acc false n) :
    Scanned f (acc ++ [f n]) (endsInMarker (acc ++ [f n])) (n + 1) where
  acc := by rw [h.acc, prefixOf_succ]
  before m hm := by
    rcases Nat.lt_succ_iff_lt_or_eq.1 hm with hm | rfl
    · exact h.before m hm
    · exact h.found.symm
  found := by rw [h.acc, prefixOf_succ]

theorem scanning_start (green blue : Nat → Bool) : Scanning green blue {} where
  msg := ⟨rfl, fun m hm => absurd hm (by simp), rfl⟩
  met := ⟨0, le_rfl, ⟨rfl, fun m hm => absurd hm (by simp), rfl⟩, fun _ => rfl⟩

theorem scanning_pixel {green blue : Nat → Bool} {e : Extraction} (h : Scanning green blue e) (hf : e.msgFound = false) :
    Scanning green blue (extractPixel (green e.pixels) (blue e.pixels) e) := by
  refine ⟨scanned_append (hf ▸ h.msg), ?_⟩
  obtain ⟨n, hn, hs, hl⟩ := h.met
  cases hm : e.metFound with
  | true =>
    refine ⟨n, Nat.le_succ_of_le hn, ?_, by simp [extractPixel, hm]⟩
    simpa [extractPixel, hm] using hm ▸ hs
  | false =>
    obtain rfl := hl hm
    refine ⟨e.pixels + 1, le_rfl, ?_, fun _ => rfl⟩
    simpa [extractPixel, hm] using scanned_append (hm ▸ hs)

/-- What the extraction loop has read when it stops: with no message marker found, all its pixels. -/
theorem scanning_extractLoop {green blue : Nat → Bool} (n : Nat) {e : Extraction} (h : Scanning green blue e) :
    Scanning green blue (extractLoop green blue n e)
      ∧ (extractLoop green blue n e).pixels ≤ e.pixels + n
      ∧ ((extractLoop green blue n e).msgFound = false → (extractLoop green blue n e).pixels = e.pixels + n) := by
  induction n generalizing e with
  | zero => exact ⟨h, le_rfl, fun _ => rfl⟩
  | succ n ih =>
    unfold extractLoop
    split
    · rename_i hf; exact ⟨h, by omega, fun hn => by simp [hf] at hn⟩
    · rename_i hf
      obtain ⟨h1, h2, h3⟩ := ih (scanning_pixel h (by simpa using hf))
      have hp : (extractPixel (green e.pixels) (blue e.pixels) e).pixels = e.pixels + 1 := rfl
      rw [hp] at h2 h3
      exact ⟨h1, by omega, fun hn => by rw [h3 hn]; omega⟩

end Sys2Proof.Laws
end

