-- ==== Sys2Proof/Laws/Machine.lean ====
section
/-! SUPPORT. Laws of whole commands and steps: every command ends in a completion, what a step can be, and the canonical form of
the memory kept by every command, host operation and step. -/

namespace Sys2Proof.Laws

open Sys2Proof.Machine
open Config (Params)

/-! ## Commands and steps -/

/-- A completion writes no register but STATUS. -/
theorem readReg_complete (s : State) (e : ErrorCode) (f : ResultFlags) (r : RegName) (h : r ≠ .status) :
    readReg (s.complete e f) r = readReg s r := by
  cases r <;> first | rfl | exact absurd rfl h

/-- Every command ends in the completion of a state that has the host's side, CTRL, CMD and the sticky flags unchanged. -/
theorem exec_completes (i : Instr) (s : State) : ∃ (t : State) (e : ErrorCode) (f : ResultFlags),
    exec i s = .next (t.complete e f) ∧ t.accerr = s.accerr ∧ t.busywr = s.busywr ∧ t.ie = s.ie ∧ t.strict = s.strict
      ∧ t.cmd = s.cmd ∧ t.host = s.host ∧ t.rdata = s.rdata := by
  cases i
  case nop => exact ⟨s, _, _, rfl, by simp⟩
  case matLoad => exact ⟨_, _, _, rfl, by simp⟩
  case matStore => exact ⟨_, _, _, rfl, by simp⟩
  case scramble => exact ⟨_, _, _, rfl, by simp⟩
  case unscramble => exact ⟨_, _, _, rfl, by simp⟩
  case pinCheck => exact ⟨_, _, _, rfl, by simp⟩
  case mask => simp only [exec, execMask, maskCmd]; split <;> exact ⟨_, _, _, rfl, by simp⟩
  case unmask => simp only [exec, execUnmask, unmaskCmd]; split <;> exact ⟨_, _, _, rfl, by simp⟩
  case encCh => simp only [exec, execEncCh, encChCmd]; split <;> exact ⟨_, _, _, rfl, by simp⟩
  case decCh => simp only [exec, execDecCh, decChCmd]; split <;> exact ⟨_, _, _, rfl, by simp⟩
  case encPix => simp only [exec, execEncPix, encPixCmd]; split <;> exact ⟨_, _, _, rfl, by simp⟩
  case decPix => simp only [exec, execDecPix, decPixCmd]; split <;> exact ⟨_, _, _, rfl, by simp⟩
  case embed => simp only [exec, execEmbed, embedCmd]; split_ifs <;> exact ⟨_, _, _, rfl, by simp⟩
  case extract =>
    simp only [exec, execExtract, extractCmd, writeExtraction]; split_ifs <;> exact ⟨_, _, _, rfl, by simp⟩

/-- What a step can be: the completion of the command in flight, legal or illegal, on the engine's turn, or one host step. -/
theorem step_cases (s : State) :
    (∃ w st i, engineTurn s = true ∧ s.phase = .busy w st ∧ decode w = .ok i ∧ step s = exec i s)
      ∨ (∃ w st e, engineTurn s = true ∧ s.phase = .busy w st ∧ decode w = .error e
          ∧ step s = .next (completeIllegal s))
      ∨ (engineTurn s = false ∧ step s = .next (hostStep Config.hw s)) := by
  unfold step nextStep
  split
  · rename_i h
    cases hp : s.phase with
    | idle => simp [engineTurn, State.busy, hp] at h
    | busy w st =>
      cases hd : decode w with
      | ok i => exact .inl ⟨w, st, i, h, rfl, hd, by simp [engineStep, State.inFlight, hp, hd]⟩
      | error e => exact .inr (.inl ⟨w, st, e, h, rfl, hd, by simp [engineStep, State.inFlight, hp, hd]⟩)
  · rename_i h
    exact .inr (.inr ⟨by simpa using h, rfl⟩)

/-! ## The canonical form of the memory -/

theorem reset_mem_wf : Memory.wf State.reset.mem = true := rfl

theorem embedCmd_wf (P : Params) {s : State} (h : Memory.wf s.mem = true) : Memory.wf (embedCmd P s).mem = true := by
  unfold embedCmd
  split_ifs
  · exact h
  · exact h
  · exact embedLoop_wf _ _ _ _ _ h

theorem extractCmd_wf (P : Params) {s : State} (h : Memory.wf s.mem = true) : Memory.wf (extractCmd P s).mem = true := by
  unfold extractCmd
  split
  · exact h
  · exact writeList_wf _ _ (writeList_wf _ _ h)

theorem abortedMemory_wf (P : Params) {s : State} (h : Memory.wf s.mem = true) :
    Memory.wf (abortedMemory P s) = true := by
  unfold abortedMemory
  split
  · exact select_wf _ _ h
  · exact select_wf _ _ h
  · exact h

theorem exec_wf {i : Instr} {s t : State} (he : exec i s = .next t) (h : Memory.wf s.mem = true) :
    Memory.wf t.mem = true := by
  cases i <;> simp only [exec, execNop, execMatLoad, execMatStore, execScramble, execUnscramble, execPinCheck, pinCheckCmd,
    execMask, maskCmd, execUnmask, unmaskCmd, execEncCh, encChCmd, execDecCh, decChCmd, execEncPix, encPixCmd, execDecPix,
    decPixCmd, execEmbed, execExtract, Host.Outcome.next.injEq] at he
  case embed => subst he; exact embedCmd_wf _ h
  case extract => subst he; exact extractCmd_wf _ h
  all_goals (subst he; (try split) <;> exact h)

theorem hostOp_wf (P : Params) (s : State) (op : HostOp) (h : Memory.wf s.mem = true) :
    Memory.wf (hostOp P s op).mem = true := by
  cases op with
  | read a n => simp only [hostOp, hostRead_eq]; exact h
  | wait => simp only [hostOp, hostRead_eq]; split <;> exact h
  | powerOn => rfl
  | write a n v =>
    simp only [hostOp]
    rcases hostWrite_cases P s a.toNat n v with ⟨_, e⟩ | ⟨_, e⟩ | ⟨_, e⟩ | ⟨_, e⟩ | ⟨_, _, e⟩ | ⟨_, r, _, e⟩ | ⟨_, _, e⟩ <;>
      rw [e]
    · exact h
    · unfold writeCtrl
      split
      · exact abortedMemory_wf P h
      · exact h
    · exact h
    · exact h
    · exact h
    · cases r <;> exact h
    · exact writeList_wf _ _ h

theorem step_wf {s t : State} (hs : step s = .next t) (h : Memory.wf s.mem = true) : Memory.wf t.mem = true := by
  rcases step_cases s with ⟨w, st, i, -, -, -, e⟩ | ⟨w, st, x, -, -, -, e⟩ | ⟨-, e⟩ <;> rw [e] at hs
  · exact exec_wf hs h
  · cases hs; exact h
  · cases hs
    unfold hostStep
    split
    · exact h
    · exact hostOp_wf _ _ _ h

end Sys2Proof.Laws
end

