-- ==== Sys2Proof/Laws/Matrix.lean ====
section
/-! SUPPORT. Laws of the matrix functions: the index and rounding helpers, and the model's determinant, product and inverse
against the library's. -/

namespace Sys2Proof.Laws

open Sys2Proof.Machine

variable {α V : Type}

/-! ## Indices and rounding -/

theorem idx16_val (x : Int) : ((idx16 x).val : Int) = x % 16 := by
  simp only [idx16]; omega

/-- The same residue gives the same index. -/
theorem idx16_congr {x y : Int} (h : x % 16 = y % 16) : idx16 x = idx16 y := by
  ext; simp only [idx16]; omega

theorem idx16_of_nat (n : Nat) : idx16 (n : Int) = Fin.ofNat 16 n := by
  ext; simp only [idx16, Fin.ofNat]; omega

@[simp] theorem roundEven_intCast (n : ℤ) : roundEven (n : ℚ) = n := by
  simp [roundEven, Rat.floor_intCast]

/-- The rounded value is within one half. -/
theorem roundEven_near (x : ℚ) : |x - roundEven x| ≤ 1 / 2 := by
  have h1 : (x.floor : ℚ) ≤ x := Rat.floor_le x
  have h2 : x < x.floor + 1 := by simpa using Rat.lt_floor_add_one x
  rw [abs_le]
  unfold roundEven
  dsimp only
  split_ifs <;> push_cast <;> constructor <;> linarith

@[simp] theorem workingList_toRat (A : Mat ℤ) (j : Fin 16) : workingList (toRat A) j = A (rowOf j) (colOf j) := by
  simp [workingList, toRat]

/-- The element read back at running offset o is the one at flat index -o mod 16. -/
theorem readBack_eq (w : Fin 16 → V) (o : Int) : readBack w o = w (idx16 (-o)) := by
  unfold readBack
  split
  · congr 1; ext; simp only [idx16]; omega
  · congr 1; exact idx16_congr (by omega)

/-! ## Exchanges -/

@[simp] theorem exchange_exchange (a b r : Fin 4) : exchange a b (exchange a b r) = r := by
  revert a b r; decide

@[simp] theorem swapRows_swapRows (M : Mat α) (a b : Fin 4) : swapRows (swapRows M a b) a b = M := by
  funext r c; simp [swapRows]

@[simp] theorem swapCols_swapCols (M : Mat α) (a b : Fin 4) : swapCols (swapCols M a b) a b = M := by
  funext r c; simp [swapCols]

theorem swapRows_swapCols (M : Mat α) (a b c d : Fin 4) :
    swapRows (swapCols M a b) c d = swapCols (swapRows M c d) a b := rfl

theorem scrambleRound_apply (M : Mat α) (m r c : Fin 4) :
    scrambleRound M m r c = M (exchange 0 (partner m) r) (exchange 0 (partner m) c) := rfl

theorem unscrambleRound_apply (M : Mat α) (m r c : Fin 4) :
    unscrambleRound M m r c = M (exchange 0 (partner m) r) (exchange 0 (partner m) c) := rfl

/-! ## Determinant, product and inverse -/

section
variable {R : Type} [CommRing R]

theorem det3_eq (B : Fin 3 → Fin 3 → R) : det3 B = Matrix.det (Matrix.of B) := by
  rw [Matrix.det_fin_three]; simp only [det3, Matrix.of_apply]; ring

/-- The model's determinant is the library's. -/
theorem det4_eq (A : Mat R) : det4 A = Matrix.det (Matrix.of A) := by
  rw [Matrix.det_succ_row_zero, Fin.sum_univ_four]
  simp only [det4, det3_eq]
  have : ∀ j : Fin 4, (Matrix.of A).submatrix Fin.succ j.succAbove = Matrix.of (minor A 0 j) := by
    intro j; ext r c; simp [minor]
  simp only [this, Matrix.of_apply]
  norm_num
  ring

/-- The model's product is the library's. -/
theorem matMul_eq (A B : Mat R) : Matrix.of (matMul A B) = Matrix.of A * Matrix.of B := by
  ext r c; simp [matMul, Matrix.mul_apply, Fin.sum_univ_four]

theorem det4_matMul (A B : Mat R) : det4 (matMul A B) = det4 A * det4 B := by
  rw [det4_eq, det4_eq, det4_eq, matMul_eq, Matrix.det_mul]

end

theorem toRat_matMul (A B : Mat ℤ) : toRat (matMul A B) = matMul (toRat A) (toRat B) := by
  funext r c; simp [toRat, matMul]

theorem det4_toRat (A : Mat ℤ) : det4 (toRat A) = ((det4 A : ℤ) : ℚ) := by
  simp only [det4, det3, minor, toRat]; push_cast; ring

theorem cofactor_eq (A : Mat ℚ) (i j : Fin 4) : cofactor A i j = (Matrix.of A).adjugate j i := by
  rw [Matrix.adjugate_fin_succ_eq_det_submatrix]
  have : (Matrix.of A).submatrix i.succAbove j.succAbove = Matrix.of (minor A i j) := by
    ext r c; simp [minor]
  rw [this, ← det3_eq, cofactor]
  split
  · rename_i h
    rw [Even.neg_one_pow (Nat.even_iff.2 h), one_mul]
  · rename_i h
    rw [Odd.neg_one_pow (Nat.odd_iff.2 (by omega))]; ring

/-- The model's inverse is the library's. -/
theorem matInv_eq (A : Mat ℚ) : Matrix.of (matInv A) = (Matrix.of A)⁻¹ := by
  ext r c
  rw [Matrix.inv_def]
  simp [matInv, cofactor_eq, det4_eq, Ring.inverse_eq_inv', div_eq_inv_mul]

/-- Where the determinant is not 0, `inv(A) · (A · B) = B`. -/
theorem matInv_matMul {A : Mat ℚ} (B : Mat ℚ) (h : det4 A ≠ 0) : matMul (matInv A) (matMul A B) = B := by
  have hu : IsUnit (Matrix.of A).det := by rw [← det4_eq]; exact isUnit_iff_ne_zero.2 h
  have : Matrix.of (matMul (matInv A) (matMul A B)) = Matrix.of B := by
    rw [matMul_eq, matMul_eq, matInv_eq, Matrix.nonsing_inv_mul_cancel_left _ _ hu]
  exact this

/-- Where the determinant is not 0, `A · (inv(A) · B) = B`. -/
theorem matMul_matInv {A : Mat ℚ} (B : Mat ℚ) (h : det4 A ≠ 0) : matMul A (matMul (matInv A) B) = B := by
  have hu : IsUnit (Matrix.of A).det := by rw [← det4_eq]; exact isUnit_iff_ne_zero.2 h
  have : Matrix.of (matMul A (matMul (matInv A) B)) = Matrix.of B := by
    rw [matMul_eq, matMul_eq, matInv_eq, Matrix.mul_nonsing_inv_cancel_left _ _ hu]
  exact this

end Sys2Proof.Laws
end

