-- ==== Sys2Proof/Laws/PerInstr.lean ====
section
/-! SUPPORT. The family `EncodeReserved`, one lemma per command: the command is well formed, its word has RSVD = 0
(30_encoding.md R100), and that word is legal (R104). -/

namespace Sys2Proof.Laws.EncodeReserved

/-- The command is well formed and its word is legal, with RSVD = 0. -/
def Statement (i : Instr) : Prop := i.wf = true ∧ rsvdField (encode i) = 0 ∧ wordLegal (encode i) = true

theorem nop : Statement .nop := ⟨rfl, rfl, rfl⟩

theorem matLoad : Statement .matLoad := ⟨rfl, rfl, rfl⟩

theorem matStore : Statement .matStore := ⟨rfl, rfl, rfl⟩

theorem scramble : Statement .scramble := ⟨rfl, rfl, rfl⟩

theorem unscramble : Statement .unscramble := ⟨rfl, rfl, rfl⟩

theorem pinCheck : Statement .pinCheck := ⟨rfl, rfl, rfl⟩

theorem mask : Statement .mask := ⟨rfl, rfl, rfl⟩

theorem unmask : Statement .unmask := ⟨rfl, rfl, rfl⟩

theorem encCh : Statement .encCh := ⟨rfl, rfl, rfl⟩

theorem decCh : Statement .decCh := ⟨rfl, rfl, rfl⟩

theorem encPix : Statement .encPix := ⟨rfl, rfl, rfl⟩

theorem decPix : Statement .decPix := ⟨rfl, rfl, rfl⟩

theorem embed : Statement .embed := ⟨rfl, rfl, rfl⟩

theorem extract : Statement .extract := ⟨rfl, rfl, rfl⟩

end Sys2Proof.Laws.EncodeReserved
end

