-- ==== Sys2Proof/Tests/Slice0.lean ====
section
/-! SUPPORT. The package's own tests. Expected results come from the spec: 95_test_vectors.md (the section or vector is named
at each test) or the encoding and address tables. Every witness theorem shows a concrete state and operands that meet
the hypotheses of one obligation. -/

namespace Sys2Proof.Tests

open Sys2Proof.Machine
open Sys2Proof.Claims
open Config (testTT)

/-! ## Helpers -/

/-- The state an outcome answers. -/
def result (o : Host.Outcome State Fault Refusal) : State :=
  match o with
  | .next t => t
  | _ => State.reset

/-- A bank of words from numbers. -/
def words (l : List Nat) : Bank Word := bankOf fun i => BitVec.ofNat 64 (l[i.val]?.getD 0)

/-- A bank of bytes from numbers. -/
def codes (l : List Nat) : Bank Byte := bankOf fun i => BitVec.ofNat 8 (l[i.val]?.getD 0)

/-- 0, 1, …, 15. -/
def counting : Bank Word := words (List.range 16)

/-- The pin "Zebra#42Moon!x9Q". -/
def zebra : Bank Byte := codes [90, 101, 98, 114, 97, 35, 52, 50, 77, 111, 111, 110, 33, 120, 57, 81]

/-- The pin "abcdefghijklmnop", which is singular. -/
def alphabet : Bank Byte := codes (List.range' 97 16)

/-- The pin "correct horse ba". -/
def horse : Bank Byte := codes [99, 111, 114, 114, 101, 99, 116, 32, 104, 111, 114, 115, 101, 32, 98, 97]

/-- The StorageKey of the Zebra pin, seed 1..16 and table TT (95_test_vectors.md section 3.4). -/
def zebraKey : Bank Word :=
  words [56076, 50243, 42389, 44410, 195124, 174839, 145985, 154554,
    392532, 351947, 292045, 311362, 597836, 535961, 441967, 474086]

/-- n pixels (10, 20, 30, 255). -/
def pixels (n : Nat) : Memory := Memory.writeList [] pixBase (List.replicate n [10, 20, 30, 255]).flatten

/-- The 32-bit word of pixel p. -/
def pixelWord (m : Memory) (p : Nat) : Word :=
  ofLittleBytes ((List.range 4).map fun k => (Memory.read? m (pixBase + 4 * p + k)).getD 0)

/-- The state of vector E1 before EMBED: message "A", 24 pixels. -/
def beforeE1 : State := { State.reset with npix := 24, msgLen := 1, mem := Memory.write (pixels 24) msgBase 0x41 }

/-- The state of vector E5 before EMBED: message 7F FF 00, 40 pixels. -/
def beforeE5 : State :=
  { State.reset with npix := 40, msgLen := 3, mem := Memory.writeList (pixels 40) msgBase [0x7F, 0xFF, 0x00] }

/-- The state with the word w in flight. -/
def running (w : Word) : State := State.reset.withFetchWord 64 w.toNat

/-! ## Decoding (30_encoding.md R103: OPCODE in bits [7:0], bits [63:8] zero) -/

theorem test_decode_nop : decode 0x0000000000000000 = .ok .nop := by decide
theorem test_decode_matLoad : decode 0x0000000000000001 = .ok .matLoad := by decide
theorem test_decode_matStore : decode 0x0000000000000002 = .ok .matStore := by decide
theorem test_decode_scramble : decode 0x0000000000000003 = .ok .scramble := by decide
theorem test_decode_unscramble : decode 0x0000000000000004 = .ok .unscramble := by decide
theorem test_decode_pinCheck : decode 0x0000000000000010 = .ok .pinCheck := by decide
theorem test_decode_mask : decode 0x0000000000000011 = .ok .mask := by decide
theorem test_decode_unmask : decode 0x0000000000000012 = .ok .unmask := by decide
theorem test_decode_encCh : decode 0x0000000000000020 = .ok .encCh := by decide
theorem test_decode_decCh : decode 0x0000000000000021 = .ok .decCh := by decide
theorem test_decode_encPix : decode 0x0000000000000022 = .ok .encPix := by decide
theorem test_decode_decPix : decode 0x0000000000000023 = .ok .decPix := by decide
theorem test_decode_embed : decode 0x0000000000000030 = .ok .embed := by decide
theorem test_decode_extract : decode 0x0000000000000031 = .ok .extract := by decide

/-- Vector K4 and R104's neighbours. -/
theorem test_decode_unassigned :
    ([0x05, 0x0F, 0x13, 0x1F, 0x24, 0x2F, 0x32, 0xFF] : List Word).all
      (fun w => decide (decode w = .error .unassignedOpcode)) = true := by decide

theorem test_decode_reserved :
    decode 0x8000000000000011 = .error .reservedBits ∧ decode 0x100 = .error .reservedBits := by decide

theorem test_decode_bytes :
    decodeBytes [0x12, 0, 0, 0, 0, 0, 0, 0, 0x99] = .ok (.unmask, [0x99])
      ∧ decodeBytes [0x12, 0, 0, 0, 0, 0, 0] = .error .truncated
      ∧ decodeBytes [0, 0, 0, 0, 0, 0, 0, 0x12] = .error .reservedBits := by decide

theorem test_decode_table_word :
    decodeTableWord 64 0x23 = some .decPix ∧ decodeTableWord 8 0x31 = some .extract ∧ decodeTableWord 64 0x123 = none := by
  decide

/-! ## Well-formedness: an ill-formed term for each check, refused -/

theorem test_wf_reserved_word : wordLegal 0x111 = false := by decide
theorem test_wf_unassigned_word : wordLegal 0x06 = false := by decide
theorem test_wf_line_wrb : ScriptLine.wf testTT (.wrb .msgbuf 1024 0) = false := by decide
theorem test_wf_line_rdb : ScriptLine.wf testTT (.rdb .metabuf 1024) = false := by decide
theorem test_wf_line_wrw_aligned : ScriptLine.wf testTT (.wrw .pixmem 2 0) = false := by decide
theorem test_wf_line_wrw_end : ScriptLine.wf testTT (.wrw .pixmem 4096 0) = false := by decide
theorem test_wf_line_rdw_aligned : ScriptLine.wf testTT (.rdw .pixmem 5) = false := by decide
theorem test_wf_line_rdw_end : ScriptLine.wf testTT (.rdw .msgbuf 1024) = false := by decide
theorem test_wf_line_accepts : ScriptLine.wf testTT (.wrw .pixmem 4092 0) = true := by decide
theorem test_wf_pin_length : Pseudo.wf testTT (.ldpin ['a', 'b']) = false := by decide
theorem test_wf_pin_code : Pseudo.wf testTT (.ldpin (List.replicate 16 (Char.ofNat 0x100))) = false := by decide
theorem test_wf_ldbuf : Pseudo.wf testTT (.ldbuf .msgbuf (List.replicate 1025 0)) = false := by decide +kernel
theorem test_wf_arg_width : Pseudo.wf testTT (.arg (2 ^ 64) 0 0) = false := by decide
theorem test_wf_arg_accepts : Pseudo.wf testTT (.arg 0x10 4 2) = true := by decide

/-- 95_test_vectors.md section 2: TT is well formed. -/
theorem test_params_testTT : testTT.wf = true := by decide +kernel
theorem test_params_entry_zero : { testTT with constTable := bankSet testTT.constTable 0 0 }.wf = false := by decide +kernel
theorem test_params_entry_large :
    { testTT with constTable := bankSet testTT.constTable 0 17730434519137 }.wf = false := by decide +kernel
theorem test_params_singular : { testTT with constTable := bankFill 7 }.wf = false := by decide +kernel
theorem test_params_pixMax_zero : { testTT with pixMax := 0 }.wf = false := by decide +kernel
theorem test_params_pixMax_large : { testTT with pixMax := 262145, msgMax := 1048576, metaMax := 1048576 }.wf = false := by
  decide +kernel
theorem test_params_msgMax_small : { testTT with msgMax := 127 }.wf = false := by decide +kernel
theorem test_params_msgMax_large : { testTT with msgMax := 1048577 }.wf = false := by decide +kernel
theorem test_params_metaMax_small : { testTT with metaMax := 127 }.wf = false := by decide +kernel
theorem test_params_metaMax_large : { testTT with metaMax := 1048577 }.wf = false := by decide +kernel
theorem test_params_base : { testTT with base := 0x200000 }.wf = false := by decide +kernel

/-! ## Commands -/

/-- Vector K5: NOP clears ERR and the result flags. -/
theorem test_nop :
    (result (step { running 0x00 with err := .illegal, flags := { seedRange := true } })).status = 0x2 := by decide

/-- Section 3.1, row ARG = 0x5. -/
theorem test_matLoad :
    (result (exec .matLoad { State.reset with vec := counting, arg := ⟨5, 0, false⟩ })).mat
      = words [5, 6, 7, 8, 9, 10, 11, 12, 13, 14, 15, 0, 1, 2, 3, 4] := by decide +kernel

/-- Section 3.1, row ARG = 0x3. -/
theorem test_matStore :
    (result (exec .matStore { State.reset with mat := counting, arg := ⟨3, 0, false⟩ })).vec
      = words [13, 14, 15, 0, 1, 2, 3, 4, 5, 6, 7, 8, 9, 10, 11, 12] := by decide +kernel

/-- Section 3.1, last row: -1 is stored as it is. -/
theorem test_matStore_negative :
    bankGet (result (exec .matStore { State.reset with mat := bankSet (bankFill 0) 0 0xFFFFFFFFFFFFFFFF })).vec 0
      = 0xFFFFFFFFFFFFFFFF := by decide +kernel

/-- Section 3.2, row 2. -/
theorem test_scramble_seed :
    (result (exec .scramble { State.reset with mat := counting, arg := ⟨0, 1, false⟩ })).mat
      = words [15, 12, 14, 13, 3, 0, 2, 1, 11, 8, 10, 9, 7, 4, 6, 5] := by decide

/-- Section 3.2, row 5: the identity. -/
theorem test_scramble_prime :
    (result (exec .scramble { State.reset with mat := counting, arg := ⟨0, 0, true⟩ })).mat = counting := by decide

/-- Program P3: UNSCRAMBLE with MIX = 1. -/
theorem test_unscramble :
    (result (exec .unscramble
      { State.reset with
        mat := words [4, 1, 3, 2, 8, 5, 7, 6, 0, 13, 15, 14, 12, 9, 11, 10], arg := ⟨0, 1, false⟩ })).mat
      = words [5, 6, 7, 8, 9, 10, 11, 12, 13, 14, 15, 0, 1, 2, 3, 4] := by decide

/-- S6: the alphabet pin is singular, OFFS = 0x11050E08, STATUS = 0x10002. -/
theorem test_pinCheck_singular :
    readReg (pinCheckCmd testTT { State.reset with pin := alphabet }) .offs = 0x11050E08
      ∧ (pinCheckCmd testTT { State.reset with pin := alphabet }).status = 0x10002 := by decide +kernel

/-- R164's example: det(P) = -4109633. -/
theorem test_pinCheck_determinant : det4 (pinMatrix zebra) = -4109633 := by decide +kernel

/-- Program P1: the Zebra key. -/
theorem test_mask :
    (maskCmd testTT { State.reset with pin := zebra, seed := codes (List.range' 1 16) }).skey = zebraKey := by
  decide +kernel

/-- S4: a singular pin. -/
theorem test_mask_singular :
    (maskCmd testTT { State.reset with pin := alphabet }).status = 0x10202 := by decide +kernel

/-- Program P1: the seed comes back, OFFS = 0x03000903. -/
theorem test_unmask :
    (unmaskCmd testTT { State.reset with pin := zebra, skey := zebraKey }).seedOut = words (List.range' 1 16)
      ∧ readReg (unmaskCmd testTT { State.reset with pin := zebra, skey := zebraKey }) .offs = 0x03000903 := by
  decide +kernel

/-- R174's example: SEED_OUT[3] = -3489573 under the wrong pin, with SEED_RANGE. -/
theorem test_unmask_wrong_pin :
    (bankGet (unmaskCmd testTT { State.reset with pin := horse, skey := zebraKey }).seedOut 3).toInt = -3489573
      ∧ (unmaskCmd testTT { State.reset with pin := horse, skey := zebraKey }).status = 0x20002 := by decide +kernel

/-- Section 3.5: 42 encodes to 0x3432. -/
theorem test_encCh : (result (exec .encCh { State.reset with chVal := 42 })).chPat = 0x3432 := by decide

/-- Section 3.5: 256 is DOMAIN, CH_PAT unchanged. -/
theorem test_encCh_domain :
    (result (exec .encCh { State.reset with chVal := 256, chPat := 0x77 })).status = 0x602
      ∧ (result (exec .encCh { State.reset with chVal := 256, chPat := 0x77 })).chPat = 0x77 := by decide

/-- Section 3.5: 0x323534 decodes to 254. -/
theorem test_decCh : (result (exec .decCh { State.reset with chPat := 0x323534 })).chVal = 254 := by decide

/-- Section 3.5: 0x310032 is DECODE. -/
theorem test_decCh_decode : (result (exec .decCh { State.reset with chPat := 0x310032 })).status = 0x502 := by decide

/-- Section 3.5: (255, 128, 0). -/
theorem test_encPix :
    (result (exec .encPix { State.reset with pixR := 255, pixG := 128, pixB := 0 })).pixPatHi = 0x32
      ∧ (result (exec .encPix { State.reset with pixR := 255, pixG := 128, pixB := 0 })).pixPatLo
        = 0x3535313238000030 := by decide

/-- Section 3.5: (255, 128, 1). -/
theorem test_decPix :
    (result (exec .decPix { State.reset with pixPatHi := 0x32, pixPatLo := 0x3535313238000031 })).pixR = 255
      ∧ (result (exec .decPix { State.reset with pixPatHi := 0x32, pixPatLo := 0x3535313238000031 })).pixG = 128
      ∧ (result (exec .decPix { State.reset with pixPatHi := 0x32, pixPatLo := 0x3535313238000031 })).pixB = 1 := by
  decide

/-- Section 3.5: a blue pattern of zeros is DECODE. -/
theorem test_decPix_decode :
    (result (exec .decPix { State.reset with pixPatHi := 0x32, pixPatLo := 0x3535313238000000 })).status = 0x502 := by
  decide

/-- Vector E1: the pixel words after EMBED. -/
theorem test_embed_pixels :
    (List.range 24).map (pixelWord (embedCmd testTT beforeE1).mem)
      = [0xFF1E150A, 0xFF1F150A] ++ List.replicate 5 0xFF1E150A ++ List.replicate 8 0xFF1F150A
        ++ List.replicate 8 0xFF1F140A ++ [0xFF1E140A] := by decide +kernel

/-- Vector E2: 23 pixels. -/
theorem test_embed_short :
    (embedCmd testTT { beforeE1 with npix := 23 }).status = 0x200002
      ∧ (embedCmd testTT { beforeE1 with npix := 23 }).xpix = 23 := by decide +kernel

/-- Vector E2: EXTRACT from the 23 pixels gives 41 FF. -/
theorem test_extract_short :
    (extractCmd testTT (embedCmd testTT { beforeE1 with npix := 23 })).status = 0x440302
      ∧ (extractCmd testTT (embedCmd testTT { beforeE1 with npix := 23 })).xmsgLen = 2
      ∧ Memory.read? (extractCmd testTT (embedCmd testTT { beforeE1 with npix := 23 })).mem (msgBase + 1)
        = some 0xFF := by decide +kernel

/-- Vector E5: a false marker after 17 bits. -/
theorem test_extract_false_marker :
    (extractCmd testTT (embedCmd testTT beforeE5)).status = 0x400002
      ∧ (extractCmd testTT (embedCmd testTT beforeE5)).xpix = 17 := by decide +kernel

/-! ## The host's side (section 3.7) and its scripts (section 4) -/

/-- K1. -/
theorem test_host_id : (hostOp testTT State.reset (.read 0x000 8)).rdata = 0x000000074B4D5300 := by decide

/-- K6: a 4-byte read of STATUS. -/
theorem test_host_register_width :
    (hostOp testTT { State.reset with rdata := 5 } (.read 0x010 4)).rdata = 0
      ∧ (hostOp testTT { State.reset with done := true } (.read 0x010 4)).status = 0x40000002 := by decide

/-- K7. -/
theorem test_host_ack :
    (hostOp testTT { State.reset with done := true, accerr := true } (.write 0x010 8 0x40000002)).status = 0 := by decide

/-- K8 and K9. -/
theorem test_host_misaligned_and_hole :
    (hostOp testTT State.reset (.read 0x100001 2)).accerr = true
      ∧ (hostOp testTT State.reset (.read 0x098 8)).accerr = true := by decide

/-- K10: two pixels in one 8-byte read, little-endian. -/
theorem test_host_little_endian :
    (hostOp testTT { State.reset with mem := Memory.writeList [] pixBase [0x0A, 0x15, 0x1E, 0xFF, 0x0A, 0x15, 0x1F, 0xFF] }
      (.read 0x100000 8)).rdata = 0xFF1F150AFF1E150A := by decide +kernel

/-- K11 and K12. -/
theorem test_host_reserved_and_read_only :
    readReg (hostOp testTT State.reset (.write 0x100 8 0x1FF)) (.pin 0) = 0xFF
      ∧ hostOp testTT State.reset (.write 0x028 8 0x1234) = State.reset := by decide +kernel

/-- K13: SRST discards STRICT. -/
theorem test_host_soft_reset :
    (hostOp testTT { State.reset with npix := 9 } (.write 0x008 8 0x6)).npix = 0
      ∧ readReg (hostOp testTT { State.reset with npix := 9 } (.write 0x008 8 0x6)) .ctrl = 0 := by decide

/-- Program P4, outcome (a): a busy write is dropped and flagged. -/
theorem test_host_busy_write :
    (hostOp testTT { running 0x20 with chVal := 42 } (.write 0x060 8 7)).chVal = 42
      ∧ (hostOp testTT { running 0x20 with chVal := 42 } (.write 0x060 8 7)).busywr = true := by decide

/-- Program P3: where MAT[2][3] is, and `arg 0, 1, 0`. -/
theorem test_script_accesses :
    (ScriptLine.rd (.mat 2 3)).access = .read 0x3D8 8
      ∧ (Pseudo.arg 0 1 0).expand = [.write 0x020 8 0x100]
      ∧ (Pseudo.run .mask).expand = [.write 0x018 8 0x11, .wait]
      ∧ (ScriptLine.wrw .pixmem 92 0xFF1E140A).access = .write 0x10005C 4 0xFF1E140A := by decide

/-- Program P1: the first and the last write of `ldpin`. -/
theorem test_script_ldpin :
    ((Pseudo.ldpin "Zebra#42Moon!x9Q".toList).expand)[0]? = some (.write 0x100 8 90)
      ∧ ((Pseudo.ldpin "Zebra#42Moon!x9Q".toList).expand)[15]? = some (.write 0x178 8 81) := by decide +kernel

/-- R107: the parts of `arg` add up unbounded (16 + 4·0x100 + 2·0x10000), and ARG keeps its named fields, here none. -/
theorem test_script_arg :
    (Pseudo.arg 0x10 4 2).expand = [.write 0x020 8 0x20410]
      ∧ readReg (hostOp testTT State.reset (.write 0x020 8 0x20410)) .arg = 0 := by decide

/-- R107, R21: `ldseed 257,…` writes 257 to SEED[0], which keeps bits [7:0]. -/
theorem test_script_ldseed :
    ((Pseudo.ldseed fun _ => 257).expand)[0]? = some (.write 0x180 8 257)
      ∧ readReg (hostOp testTT State.reset (.write 0x180 8 257)) (.seed 0) = 1 := by decide

/-! ## Witnesses: a concrete state and operands that meet the hypotheses of each obligation -/

/-- The capacities of this implementation (00_scope.md R6). -/
theorem hw_capacities : 1 ≤ Config.hw.pixMax ∧ Config.hw.pixMax ≤ 262144 ∧ 1 ≤ Config.hw.msgMax ∧ 1 ≤ Config.hw.metaMax := by
  have h : Config.hw.wf = true := Config.chosen.ok
  simp only [Config.Params.wf, Bool.and_eq_true, Config.capacitiesOk, decide_eq_true_eq] at h
  omega

theorem matP_det (pin : Bank Byte) :
    (matP pin).det = det4 fun r c =>
      ((bankGet pin (Fin.ofNat 16 (Claims.offset pin 0 + 4 * r.val + c.val))).toNat : ℤ) := (Laws.det4_eq _).symm

theorem pinTotal_zebra : pinTotal zebra = 1337 := by decide +kernel

theorem pinTotal_alphabet : pinTotal alphabet = 1672 := by decide +kernel

/-- The Zebra pin is not singular (41_key_masking.md R164). -/
theorem witness_zebra : (matP zebra).det ≠ 0 := by
  rw [matP_det, Claims.offset, pinTotal_zebra]; decide +kernel

/-- The alphabet pin is singular (41_key_masking.md R164). -/
theorem witness_alphabet : (matP alphabet).det = 0 := by
  rw [matP_det, Claims.offset, pinTotal_alphabet]; decide +kernel

theorem witness_DecodeExactlyTheTable :
    (∀ i : Instr, ((0x05 : Word), i) ∉ legalWords) ∧ ∀ i : Instr, ((0x100 : Word), i) ∉ legalWords := by
  constructor <;> intro i <;> cases i <;> decide

theorem witness_StepRunsDecodedCommand :
    (running 0x11).phase = .busy 0x11 false ∧ ((running 0x11).latency = 0 ∨ (running 0x11).host = [])
      ∧ decode 0x11 = .ok .mask := ⟨rfl, .inl rfl, by decide⟩

/-- The second way for the engine to move: the host has nothing left to do. -/
theorem witness_StepRunsDecodedCommand_idle_host :
    { running 0x01 with latency := 1 }.phase = .busy 0x01 false
      ∧ ({ running 0x01 with latency := 1 }.latency = 0 ∨ { running 0x01 with latency := 1 }.host = [])
      ∧ decode 0x01 = .ok .matLoad := ⟨rfl, .inr rfl, by decide⟩

theorem witness_StepPerformsHostOperation :
    ({ State.reset with host := [.read 0 8] }.phase = .idle ∨ 0 < { State.reset with host := [.read 0 8] }.latency)
      ∧ { State.reset with host := [.read 0 8] }.host = .read 0 8 :: [] := ⟨.inl rfl, rfl⟩

/-- The second clause at its boundary: one host step left while a command is in flight. -/
theorem witness_StepPerformsHostOperation_busy :
    ({ running 0x30 with latency := 1, host := [.wait] }.phase = .idle
        ∨ 0 < { running 0x30 with latency := 1, host := [.wait] }.latency)
      ∧ { running 0x30 with latency := 1, host := [.wait] }.host = .wait :: [] := ⟨.inr (by decide), rfl⟩

theorem witness_WriteToCmdIssues :
    { State.reset with host := [.write 0x018 8 0x11] }.phase = .idle
      ∧ { State.reset with host := [.write 0x018 8 0x11] }.host = .write 0x018 8 0x11 :: [] := ⟨rfl, rfl⟩

theorem witness_IllegalWordCompletes :
    (running 0x100).phase = .busy 0x100 false ∧ ((running 0x100).latency = 0 ∨ (running 0x100).host = [])
      ∧ ∀ i : Instr, ((0x100 : Word), i) ∉ legalWords := ⟨rfl, .inl rfl, witness_DecodeExactlyTheTable.2⟩

theorem witness_ErrorCodesByCommand :
    exec .mask { State.reset with pin := alphabet } = .next (maskCmd Config.hw { State.reset with pin := alphabet }) := rfl

theorem witness_RegisterFrameOfEveryCommand :
    exec .unmask { State.reset with pin := zebra } = .next (unmaskCmd Config.hw { State.reset with pin := zebra })
      ∧ RegName.skey 15 ≠ .status ∧ tableWrites .unmask (.skey 15) = false := ⟨rfl, by decide, rfl⟩

theorem witness_RegisterCommandsKeepMemory :
    Instr.encCh ≠ .embed ∧ Instr.encCh ≠ .extract
      ∧ exec .encCh { State.reset with mem := [(pixBase, 7)] } = .next (encChCmd { State.reset with mem := [(pixBase, 7)] }) :=
  ⟨by decide, by decide, rfl⟩

/-- The red byte of pixel 0 is in no embedded place. -/
theorem witness_EmbedMemoryFrame :
    exec .embed beforeE1 = .next (embedCmd Config.hw beforeE1)
      ∧ (∀ p, p < min beforeE1.npix.toNat (lm beforeE1) → pixBase ≠ blueAt p)
      ∧ ∀ p, p < min beforeE1.npix.toNat (lm beforeE1) → p < ld beforeE1 → pixBase ≠ greenAt p :=
  ⟨rfl, fun p _ => by simp only [blueAt]; omega, fun p _ _ => by simp only [greenAt]; omega⟩

/-- The byte before MSGBUF is never written. -/
theorem witness_ExtractMemoryFrame :
    exec .extract beforeE1 = .next (extractCmd Config.hw beforeE1)
      ∧ (0x1FFFFF < msgBase ∨ msgBase + (extractCmd Config.hw beforeE1).xmsgLen.toNat ≤ 0x1FFFFF)
      ∧ (0x1FFFFF < metaBase ∨ metaBase + (extractCmd Config.hw beforeE1).xmetaLen.toNat ≤ 0x1FFFFF) :=
  ⟨rfl, .inl (by decide), .inl (by decide)⟩

theorem witness_FailedCommandWritesNoOutput :
    exec .encCh { State.reset with chVal := 256 } = .next (encChCmd { State.reset with chVal := 256 })
      ∧ (encChCmd { State.reset with chVal := 256 }).err ≠ .ok
      ∧ (Instr.encCh ≠ .extract ∨ (encChCmd { State.reset with chVal := 256 }).err ≠ .capacity)
      ∧ RegName.chPat ≠ .status ∧ ¬ (RegName.chPat = .offs ∧ (Instr.encCh = .mask ∨ Instr.encCh = .unmask))
      ∧ ¬ (RegName.chPat = .xpix ∧ Instr.encCh = .embed ∧ (encChCmd { State.reset with chVal := 256 }).err = .capacity) :=
  ⟨rfl, by decide, .inl (by decide), by decide, by decide, by decide⟩

/-- The last clause: EMBED ends with CAPACITY. -/
theorem witness_FailedCommandWritesNoOutput_embed :
    exec .embed { running 0x30 with phase := .busy 0x30 true }
        = .next (embedCmd Config.hw { running 0x30 with phase := .busy 0x30 true })
      ∧ (embedCmd Config.hw { running 0x30 with phase := .busy 0x30 true }).err = .capacity := by
  refine ⟨rfl, ?_⟩
  unfold embedCmd
  rw [if_neg (by simp [embedOutOfRange, running, State.withFetchWord, placeCommand, State.reset])]
  rfl

theorem witness_MatStoreReadsBackByDistance :
    (0 : Nat) = ({ State.reset with arg := ⟨15, 0, false⟩ }.arg.offset.toNat + 16 - (15 : Fin 16).val) % 16
      ∧ (15 : Nat) = ({ State.reset with arg := ⟨15, 0, false⟩ }.arg.offset.toNat + 16 - (0 : Fin 16).val) % 16 := by
  decide

/-- The tie 1/2, between 0 and 1. -/
theorem witness_RoundsToNearestTiesToEven :
    (1 : ℤ) ≠ roundEven (1 / 2) ∧ |(1 / 2 : ℚ) - (1 : ℤ)| = |(1 / 2 : ℚ) - roundEven (1 / 2)| := by
  have h : roundEven (1 / 2) = 0 := by decide +kernel
  rw [h]
  norm_num

theorem witness_MaskWritesStorageKey :
    (matP { State.reset with pin := zebra }.pin).det ≠ 0 ∧ (matP { State.reset with pin := alphabet }.pin).det = 0 :=
  ⟨witness_zebra, witness_alphabet⟩

theorem witness_StorageKeyFitsRegister : testTT.wf = true ∧ ∀ k, bankGet testTT.constTable k ≤ 53 :=
  ⟨test_params_testTT, by decide⟩

theorem witness_UnmaskRecoversSeed :
    (matP { State.reset with pin := zebra, skey := zebraKey }.pin).det ≠ 0
      ∧ (matP { State.reset with pin := alphabet, skey := zebraKey }.pin).det = 0 :=
  ⟨witness_zebra, witness_alphabet⟩

theorem witness_MaskUnmaskRoundTrip :
    (matP { State.reset with pin := zebra, seed := codes (List.range' 1 16) }.pin).det ≠ 0
      ∧ { maskCmd Config.hw { State.reset with pin := zebra } with seed := bankFill 0 }.pin = zebra
      ∧ { maskCmd Config.hw { State.reset with pin := zebra } with seed := bankFill 0 }.skey
        = (maskCmd Config.hw { State.reset with pin := zebra }).skey := by
  refine ⟨witness_zebra, ?_, rfl⟩
  unfold maskCmd
  split <;> rfl

theorem witness_EncChWritesPattern :
    { State.reset with chVal := 255 }.chVal.toNat ≤ 255 ∧ 255 < { State.reset with chVal := 256 }.chVal.toNat := by decide

theorem witness_DecodeChannelAccepts :
    decodeChannel 0x393939 = some 999 ∧ decodeChannel 0x30 = some 0 := by decide

theorem witness_DecChWritesValue :
    Decodes { State.reset with chPat := 0x30 }.chPat.toNat 0 ∧ Decodes { State.reset with chPat := 0x393939 }.chPat.toNat 999
      ∧ ∀ v, ¬ Decodes State.reset.chPat.toNat v := by
  refine ⟨⟨0, 0, 0, by decide, by decide, by decide, .inl (by decide)⟩,
    ⟨9, 9, 9, by decide, by decide, by decide, .inr (.inr (by decide))⟩, ?_⟩
  rintro v ⟨a, b, c, -, -, -, h⟩
  have : State.reset.chPat.toNat = 0 := rfl
  omega

theorem witness_EncPixWritesPattern :
    ({ State.reset with pixR := 255, pixG := 255, pixB := 255 }.pixR.toNat ≤ 255
        ∧ { State.reset with pixR := 255, pixG := 255, pixB := 255 }.pixG.toNat ≤ 255
        ∧ { State.reset with pixR := 255, pixG := 255, pixB := 255 }.pixB.toNat ≤ 255)
      ∧ (255 < { State.reset with pixB := 256 }.pixR.toNat ∨ 255 < { State.reset with pixB := 256 }.pixG.toNat
        ∨ 255 < { State.reset with pixB := 256 }.pixB.toNat) := by decide

theorem witness_DecPixWritesValues :
    ({ State.reset with pixPatHi := 0x32, pixPatLo := 0x3535313238000031 }.pixPatHi.toNat * 2 ^ 64
          + { State.reset with pixPatHi := 0x32, pixPatLo := 0x3535313238000031 }.pixPatLo.toNat
        = 0x323535 * 2 ^ 48 + 0x313238 * 2 ^ 24 + 0x31)
      ∧ Decodes 0x323535 255 ∧ Decodes 0x313238 128 ∧ Decodes 0x31 1
      ∧ State.reset.pixPatHi.toNat * 2 ^ 64 + State.reset.pixPatLo.toNat = 0 * 2 ^ 48 + 0 * 2 ^ 24 + 0
      ∧ ∀ v, ¬ Decodes 0 v := by
  refine ⟨by decide, ⟨2, 5, 5, by decide, by decide, by decide, .inr (.inr (by decide))⟩,
    ⟨1, 2, 8, by decide, by decide, by decide, .inr (.inr (by decide))⟩,
    ⟨0, 0, 1, by decide, by decide, by decide, .inl (by decide)⟩, by decide, ?_⟩
  rintro v ⟨a, b, c, -, -, -, h⟩
  omega

theorem witness_ChannelCodecLaws : (255 : Nat) ≤ 255 := by decide

theorem witness_EncPixThenDecPixRestores :
    { State.reset with pixR := 255 }.pixR.toNat ≤ 255 ∧ { State.reset with pixR := 255 }.pixG.toNat ≤ 255
      ∧ { State.reset with pixR := 255 }.pixB.toNat ≤ 255 := by decide

/-- NPIX at its largest is above every capacity. -/
theorem witness_RangeCheckComesFirst :
    ¬ EmbedInRange Config.hw { State.reset with npix := 0xFFFFFFFF }
      ∧ Config.hw.pixMax < { State.reset with npix := 0xFFFFFFFF }.npix.toNat := by
  have h : { State.reset with npix := 0xFFFFFFFF }.npix.toNat = 0xFFFFFFFF := rfl
  have := hw_capacities
  refine ⟨fun hr => ?_, by omega⟩
  have := hr.1
  omega

theorem witness_StrictEmbedRefusesCapacity :
    { State.reset with phase := .busy 0x30 true }.phase = .busy 0x30 true
      ∧ EmbedInRange Config.hw { State.reset with phase := .busy 0x30 true }
      ∧ ({ State.reset with phase := .busy 0x30 true }.npix.toNat < lm { State.reset with phase := .busy 0x30 true }
        ∨ lm { State.reset with phase := .busy 0x30 true } < ld { State.reset with phase := .busy 0x30 true }) :=
  ⟨rfl, ⟨Nat.zero_le _, Nat.zero_le _, Nat.zero_le _⟩, .inl (by decide)⟩

/-- The second clause: one metadata byte and no message byte. -/
theorem witness_StrictEmbedRefusesCapacity_metadata :
    EmbedInRange Config.hw { State.reset with phase := .busy 0x30 true, metaLen := 1 }
      ∧ lm { State.reset with phase := .busy 0x30 true, metaLen := 1 }
        < ld { State.reset with phase := .busy 0x30 true, metaLen := 1 } :=
  ⟨⟨Nat.zero_le _, Nat.zero_le _, hw_capacities.2.2.2⟩, by decide⟩

/-- LEGACY, one pixel. -/
theorem witness_EmbedWritesBothStreams :
    { running 0x30 with npix := 1 }.phase = .busy 0x30 false ∧ EmbedInRange Config.hw { running 0x30 with npix := 1 }
      ∧ (false = false ∨ (lm { running 0x30 with npix := 1 } ≤ { running 0x30 with npix := 1 }.npix.toNat
        ∧ ld { running 0x30 with npix := 1 } ≤ lm { running 0x30 with npix := 1 })) :=
  ⟨rfl, ⟨hw_capacities.1, Nat.zero_le _, Nat.zero_le _⟩, .inl rfl⟩

/-- STRICT with exactly enough room, on every implementation that has 16 pixels. -/
theorem witness_EmbedWritesBothStreams_strict (h : 16 ≤ Config.hw.pixMax) :
    EmbedInRange Config.hw { State.reset with phase := .busy 0x30 true, npix := 16 }
      ∧ lm { State.reset with phase := .busy 0x30 true, npix := 16 } ≤ 16
      ∧ ld { State.reset with phase := .busy 0x30 true, npix := 16 }
        ≤ lm { State.reset with phase := .busy 0x30 true, npix := 16 } :=
  ⟨⟨h, Nat.zero_le _, Nat.zero_le _⟩, by decide, by decide⟩

/-- NPIX at its largest admitted value. -/
theorem witness_ExtractReadsBothStreams :
    { State.reset with npix := BitVec.ofNat 32 Config.hw.pixMax }.npix.toNat ≤ Config.hw.pixMax := Nat.mod_le _ _

/-- The empty message and metadata in exactly 16 pixels, with the EMBED result itself as the later state. -/
theorem witness_EmbedExtractRoundTrip :
    testTT.wf = true ∧ EmbedInRange testTT { State.reset with npix := 16 }
      ∧ lm { State.reset with npix := 16 } ≤ { State.reset with npix := 16 }.npix.toNat
      ∧ ld { State.reset with npix := 16 } ≤ lm { State.reset with npix := 16 }
      ∧ (∀ m, m < lm { State.reset with npix := 16 } →
          ¬ MarkerEndsAt (streamBit (msgByte { State.reset with npix := 16 }) 0) m)
      ∧ (∀ m, m < ld { State.reset with npix := 16 } →
          ¬ MarkerEndsAt (streamBit (metaByte { State.reset with npix := 16 }) 0) m)
      ∧ (embedCmd testTT { State.reset with npix := 16 }).npix = 16 :=
  ⟨test_params_testTT, ⟨by decide, by decide, by decide⟩, by decide, by decide,
    fun _ hm h => absurd h.1 (Nat.not_le.2 hm), fun _ hm h => absurd h.1 (Nat.not_le.2 hm), rfl⟩

/-- The largest ASCII byte, in a list and in both buffers of a state. -/
theorem witness_AsciiStreamHasNoFalseMarker :
    (∀ b ∈ ([0x7F, 0x7F] : List Byte), b.toNat < 0x80)
      ∧ (∀ k, k < 1 → (msgByte { State.reset with msgLen := 1, mem := [(msgBase, 0x7F)] } k).toNat < 0x80)
      ∧ ∀ k, k < 1 → (metaByte { State.reset with metaLen := 1, mem := [(metaBase, 0x7F)] } k).toNat < 0x80 := by
  decide

theorem witness_SerializationRoundTrip :
    0 < ([0x80] : List Byte).length ∧ 7 < 8 ∧ 0 < (List.replicate 15 true).length / 8 := by decide

/-- Each of the five conditions, at a boundary value. -/
theorem witness_InadmissibleAccessOnlySetsAccerr :
    testTT.wf = true ∧ { testTT with pixMax := 1 }.wf = true
      ∧ Inadmissible testTT 0x100000 3 ∧ Inadmissible testTT 0x100001 2 ∧ Inadmissible testTT 0x400 8
      ∧ Inadmissible testTT 0x101000 1 ∧ Inadmissible testTT 0x010 4 ∧ Inadmissible testTT 0x098 8
      ∧ Inadmissible { testTT with pixMax := 1 } 0x100000 8 := by
  refine ⟨test_params_testTT, by decide +kernel, .inl (by decide), .inr (.inl (by decide)), .inr (.inr (.inl ⟨by decide, ?_⟩)),
    .inr (.inr (.inl ⟨by decide, ?_⟩)), .inr (.inr (.inr (.inl ⟨by decide, .inl (by decide)⟩))),
    .inr (.inr (.inr (.inl ⟨by decide, .inr ?_⟩))), .inr (.inr (.inr (.inr ⟨.pixmem, ?_, ?_⟩)))⟩
  · intro b; cases b <;> unfold Inside <;> decide
  · intro b; cases b <;> unfold Inside <;> decide
  · intro r; cases r <;> simp only [RegName.offset] <;> omega
  · unfold Inside; decide
  · unfold Inside; decide

theorem witness_RegisterWriteReadsBack :
    State.reset.phase = .idle ∧ RegName.arg ≠ .ctrl ∧ RegName.arg ≠ .status ∧ RegName.arg ≠ .cmd
      ∧ readOnly .arg = false ∧ readOnly .offs = true ∧ RegName.mat 3 3 ≠ .arg := by decide

/-- The last eight bytes of PIXMEM. -/
theorem witness_BufferAccessIsLittleEndian :
    testTT.wf = true ∧ State.reset.phase = .idle ∧ ((8 : Nat) = 1 ∨ (8 : Nat) = 2 ∨ (8 : Nat) = 4 ∨ (8 : Nat) = 8)
      ∧ (0x100FF8 : BitVec 22).toNat % 8 = 0 ∧ Inside testTT .pixmem (0x100FF8 : BitVec 22).toNat 8 :=
  ⟨test_params_testTT, rfl, by decide, by decide, by unfold Inside; decide⟩

theorem witness_BusyWriteIsDropped :
    testTT.wf = true ∧ (running 0x30).phase = .busy 0x30 false ∧ ¬ Inadmissible testTT (0x018 : BitVec 22).toNat 8
      ∧ (0x018 : BitVec 22).toNat ≠ 0x008 ∧ (0x018 : BitVec 22).toNat ≠ 0x010 := by
  refine ⟨test_params_testTT, rfl, ?_, by decide, by decide⟩
  have h : (0x018 : BitVec 22).toNat = 0x018 := rfl
  rw [h]
  rintro (h | h | h | h | ⟨b, h, -⟩)
  · omega
  · omega
  · omega
  · exact h.2.elim (fun h => h rfl) fun h => h .cmd rfl
  · cases b <;> simp only [Inside, Buffer.base, pixBase, msgBase, metaBase] at h <;> omega

theorem witness_HostReadHasNoSideEffect :
    testTT.wf = true ∧ ¬ Inadmissible testTT (0x018 : BitVec 22).toNat 8
      ∧ ∀ w st i, (running 0x11).phase = .busy w st → decode w = .ok i → tableWrites i (.seed 0) = false := by
  refine ⟨test_params_testTT, witness_BusyWriteIsDropped.2.2.1, ?_⟩
  intro w st i hp hd
  cases hp
  have : decode 0x11 = .ok .mask := by decide
  cases this.symm.trans hd
  rfl

theorem witness_WrittenByteReadsBack :
    testTT.wf = true ∧ Inside testTT .pixmem (0x100000 : BitVec 22).toNat 1
      ∧ Memory.read? { running 0x30 with npix := 1, mem := [(0x100000, 7)] }.mem (0x100000 : BitVec 22).toNat = some 7
      ∧ (∀ w st, { running 0x30 with npix := 1, mem := [(0x100000, 7)] }.phase = .busy w st → decode w = .ok .embed →
        ∀ p, p < min 1 (lm { running 0x30 with npix := 1, mem := [(0x100000, 7)] }) →
          (0x100000 : BitVec 22).toNat ≠ greenAt p ∧ (0x100000 : BitVec 22).toNat ≠ blueAt p)
      ∧ ∀ w st, { running 0x30 with npix := 1, mem := [(0x100000, 7)] }.phase = .busy w st → decode w = .ok .extract →
        ∀ k, k < 1 / 8 → (0x100000 : BitVec 22).toNat ≠ msgBase + k ∧ (0x100000 : BitVec 22).toNat ≠ metaBase + k := by
  have h : (0x100000 : BitVec 22).toNat = 0x100000 := rfl
  refine ⟨test_params_testTT, by unfold Inside; decide, rfl, fun _ _ _ _ p _ => ?_, fun _ _ _ _ k hk => by omega⟩
  simp only [greenAt, blueAt, pixBase]
  omega

theorem witness_CtrlAndStatusWrites : (0x5 : Word).getLsbD 1 = false := by decide

theorem witness_SoftResetClearsRegisters : (0x2 : Word).getLsbD 1 = true ∧ State.reset.phase = .idle := by decide

theorem witness_AbortedBytesAreOldOrNew :
    Memory.wf { running 0x30 with npix := 1, mem := [(0x100002, 7)] }.mem = true
      ∧ { running 0x30 with npix := 1, mem := [(0x100002, 7)] }.phase = .busy 0x30 false
      ∧ (0x2 : Word).getLsbD 1 = true := by decide

theorem witness_PowerOnResetState :
    (State.reset = State.reset ∨ State.reset = hostOp Config.hw (running 0x30) .powerOn)
      ∧ (hostOp Config.hw (running 0x30) .powerOn = State.reset
        ∨ hostOp Config.hw (running 0x30) .powerOn = hostOp Config.hw (running 0x30) .powerOn) := ⟨.inl rfl, .inr rfl⟩

/-- A legal and an illegal word on the engine's turn, a command that answers, and an Idle state. -/
theorem witness_InterruptOutput :
    exec .nop { running 0x00 with ie := true } = .next (({ running 0x00 with ie := true } : State).complete .ok {})
      ∧ (running 0x00).phase = .busy 0x00 false ∧ (running 0x00).latency = 0
      ∧ (running 0x100).phase = .busy 0x100 false ∧ (running 0x100).host = []
      ∧ State.reset.phase = .idle := ⟨rfl, rfl, rfl, rfl, rfl, rfl⟩

/-- A state with a command in flight that has the invariant, and its step. -/
theorem witness_StepKeepsInvariant :
    (running 0x00).Inv Config.hw ∧ step (running 0x00) = .next ((running 0x00).complete .ok {}) where
  left :=
    { memory := ⟨rfl, fun _ h => absurd h (List.not_mem_nil)⟩
      offs := ⟨rfl, rfl⟩
      counts := ⟨Nat.zero_le _, Nat.zero_le _, Nat.zero_le _⟩
      phase := fun w st h => by cases h; exact ⟨rfl, rfl⟩ }
  right := rfl

theorem witness_BusyEndsWithinLatency : (running 0x30).busy = true := by decide

end Sys2Proof.Tests
end

section
/-! Proofs of the host's side (20_memory.md): the five conditions of R73 are exactly the accesses that reach nothing, so an
inadmissible access leaves only its trace in ACCERR. -/

namespace Sys2Proof.Proofs.Access

open Sys2Proof.Machine Sys2Proof.Claims Sys2Proof.Laws
open Config (Params)

variable {P : Params}

/-! ## Registers -/

theorem eq_offset_of_controlRegAt {a : Nat} {r : RegName} (h : controlRegAt a = some r) : a = r.offset := by
  unfold controlRegAt at h
  split at h <;> cases h <;> rfl

/-- Element i of a bank lies 8 · i bytes above the bank's base, which is its number times 0x80. -/
theorem offset_of_bankAt {bank : Nat} {i : Fin 16} {r : RegName} (h : bankAt bank i = some r) :
    r.offset = 0x80 * bank + 8 * i.val := by
  unfold bankAt at h
  split at h <;> cases h
  case h_6 => simp only [RegName.offset, rowOf, colOf]; omega
  all_goals rfl

/-- The converse of `regAt_offset`: an offset that names a register is that register's (R25, R72). -/
theorem eq_offset_of_regAt {a : Nat} {r : RegName} (h : regAt a = some r) : a = r.offset := by
  unfold regAt at h
  split_ifs at h with hctl hmod
  · exact eq_offset_of_controlRegAt h
  · have hoff := offset_of_bankAt h
    simp only at hoff
    omega

/-! ## Buffers -/

theorem holds_iff {b : Buffer} {a n : Nat} : Buffer.holds P b a n = true ↔ Inside P b a n := by
  simp [Buffer.holds, Inside]

theorem inSomeBuffer_iff {a n : Nat} : inSomeBuffer P a n = true ↔ ∃ b, Inside P b a n := by
  simp only [inSomeBuffer, Bool.or_eq_true, holds_iff]
  constructor
  · rintro ((h | h) | h) <;> exact ⟨_, h⟩
  · rintro ⟨b, h⟩
    cases b <;> simp [h]

/-- No buffer reaches down to the registers (R70). -/
theorem offset_ge_of_inside {b : Buffer} {a n : Nat} (h : Inside P b a n) : 0x400 ≤ a := by
  have hbase : 0x400 ≤ b.base := by cases b <;> decide
  exact hbase.trans h.1

/-- A buffer fills at most its own 0x100000 bytes of the window (00_scope.md R6, R70). -/
theorem size_le (hP : P.wf = true) (b : Buffer) : b.size P ≤ 0x100000 := by
  simp only [Params.wf, Config.capacitiesOk, Bool.and_eq_true, decide_eq_true_eq] at hP
  cases b <;> simp only [Buffer.size] <;> omega

/-- The buffers are disjoint: the one that a byte lies in is determined. -/
theorem buffer_eq_of_inside (hP : P.wf = true) {b c : Buffer} {a m n : Nat} (hm : 0 < m) (hn : 0 < n)
    (hb : Inside P b a m) (hc : Inside P c a n) : b = c := by
  have hbs := size_le hP b
  have hcs := size_le hP c
  obtain ⟨hb1, hb2⟩ := hb
  obtain ⟨hc1, hc2⟩ := hc
  cases b <;> cases c <;> simp only [Buffer.base, pixBase, msgBase, metaBase] at * <;> omega

/-! ## R73 -/

/-- An aligned access of an admissible width that stays in one buffer reaches its bytes (R75). -/
theorem accessTarget_bytes {b : Buffer} {a n : Nat} (hw : n = 1 ∨ n = 2 ∨ n = 4 ∨ n = 8) (hal : a % n = 0)
    (hb : Inside P b a n) : accessTarget P a n = some (.bytes a n) := by
  have hwidth : ¬ (n ≠ 1 ∧ n ≠ 2 ∧ n ≠ 4 ∧ n ≠ 8) := by omega
  have hhigh : ¬ a < 0x400 := Nat.not_lt.2 (offset_ge_of_inside hb)
  simp [accessTarget, hwidth, hal, hhigh, inSomeBuffer_iff.2 ⟨b, hb⟩]

/-- None of the five conditions of R73 holds of an access that reaches something. -/
theorem not_inadmissible_of_accessTarget (hP : P.wf = true) {a n : Nat} {t : Target}
    (h : accessTarget P a n = some t) : ¬ Inadmissible P a n := by
  rcases accessTarget_cases h with ⟨rfl, hlow, r, hr, -⟩ | ⟨hw, hal, hhigh, hin, -⟩
  · have hoff := eq_offset_of_regAt hr
    have hmod := offset_mod r
    rintro (hwidth | hmis | ⟨hge, -⟩ | ⟨-, h8 | hno⟩ | ⟨b, hb, -⟩)
    · omega
    · omega
    · omega
    · exact h8 rfl
    · exact hno r hoff
    · have := offset_ge_of_inside hb
      omega
  · obtain ⟨c, hc⟩ := inSomeBuffer_iff.1 hin
    have hfirst : Inside P c a 1 := ⟨hc.1, by have := hc.2; omega⟩
    rintro (hwidth | hmis | ⟨-, hno⟩ | ⟨hlt, -⟩ | ⟨b, hb, hcross⟩)
    · omega
    · exact hmis hal
    · exact hno c hfirst
    · omega
    · exact hcross (buffer_eq_of_inside hP one_pos one_pos hb hfirst ▸ hc)

/-- An access of which none of the five conditions of R73 holds reaches a register or buffer bytes. -/
theorem accessTarget_isSome_of_not_inadmissible {a n : Nat} (h : ¬ Inadmissible P a n) :
    ∃ t, accessTarget P a n = some t := by
  simp only [Inadmissible, not_or, not_and, not_exists, not_forall, not_not] at h
  obtain ⟨hwidth, hal, hhole, hreg, hcross⟩ := h
  by_cases hlow : a < 0x400
  · obtain ⟨rfl, r, rfl⟩ := hreg hlow
    exact ⟨_, accessTarget_reg P r⟩
  · obtain ⟨b, hb⟩ := hhole (by omega)
    exact ⟨_, accessTarget_bytes (by omega) hal (hcross b hb)⟩

/-- R73's five conditions are exactly the accesses that reach nothing. -/
theorem accessTarget_eq_none_iff (hP : P.wf = true) {a n : Nat} :
    accessTarget P a n = none ↔ Inadmissible P a n := by
  constructor
  · intro h
    by_contra hadm
    obtain ⟨t, ht⟩ := accessTarget_isSome_of_not_inadmissible hadm
    simp [h] at ht
  · intro h
    by_contra hsome
    obtain ⟨t, ht⟩ := Option.ne_none_iff_exists'.1 hsome
    exact not_inadmissible_of_accessTarget hP ht h

end Sys2Proof.Proofs.Access

namespace Sys2Proof.Proofs

open Sys2Proof.Machine Sys2Proof.Laws

/-- Settles O45: an inadmissible access reaches nothing (`accessTarget_eq_none_iff`), and then the read and the write each
leave only ACCERR. -/
theorem inadmissibleAccessOnlySetsAccerr : Obligations.InadmissibleAccessOnlySetsAccerr := by
  intro P s a n v hP hbad
  have hnone : accessTarget P a.toNat n = none := (Access.accessTarget_eq_none_iff hP).2 hbad
  constructor
  · simp [hostOp, hostRead_eq, hnone, readValue]
  · simp [hostOp, hostWrite, hnone, State.setAccErr]

end Sys2Proof.Proofs
end

section
/-! Proofs of the encoding (30_encoding.md): a command word is determined by its two fields, so the decoder accepts exactly the
encoder's words, and those are the words of the table. -/

namespace Sys2Proof.Proofs.Encoding

open Sys2Proof.Claims Sys2Proof.Laws

/-- OPCODE and RSVD are all of a word (R100). -/
theorem eq_of_fields_eq {v w : Word} (hr : rsvdField v = rsvdField w) (ho : opcodeField v = opcodeField w) : v = w := by
  have hdiv := congrArg BitVec.toNat hr
  have hmod := congrArg BitVec.toNat ho
  rw [rsvdField_toNat, rsvdField_toNat] at hdiv
  rw [opcodeField_toNat, opcodeField_toNat] at hmod
  exact BitVec.eq_of_toNat_eq (by omega)

theorem eq_encode_iff {w : Word} {i : Instr} : w = encode i ↔ rsvdField w = 0 ∧ opcodeField w = opcode i := by
  constructor
  · rintro rfl
    simp
  · rintro ⟨hr, ho⟩
    exact eq_of_fields_eq (by simp [hr]) (by simp [ho])

/-! ## The decoder, case by case (R105) -/

theorem decode_of_reserved {w : Word} (hr : rsvdField w ≠ 0) : decode w = .error .reservedBits :=
  if_pos hr

theorem decode_of_assigned {w : Word} {i : Instr} (hr : rsvdField w = 0) (ho : decodeOpcode (opcodeField w) = some i) :
    decode w = .ok i := by
  simp [decode, hr, ho]

theorem decode_of_unassigned {w : Word} (hr : rsvdField w = 0) (ho : decodeOpcode (opcodeField w) = none) :
    decode w = .error .unassignedOpcode := by
  simp [decode, hr, ho]

@[simp] theorem decode_encode (i : Instr) : decode (encode i) = .ok i :=
  decode_of_assigned (by simp) (by simp [decodeOpcode_eq_some])

/-- The decoder accepts a word only as the command that the encoder writes it for. -/
theorem decode_eq_ok_iff {w : Word} {i : Instr} : decode w = .ok i ↔ w = encode i := by
  constructor
  · intro h
    by_cases hr : rsvdField w = 0
    · cases ho : decodeOpcode (opcodeField w) with
      | none => simp [decode_of_unassigned hr ho] at h
      | some j =>
        obtain rfl : j = i := by simpa [decode_of_assigned hr ho] using h
        exact eq_encode_iff.2 ⟨hr, (decodeOpcode_eq_some _ _).1 ho⟩
    · simp [decode_of_reserved hr] at h
  · rintro rfl
    exact decode_encode i

/-- A word that encodes no command is illegal, and RSVD says why (R104). -/
theorem decode_of_ne_encode {w : Word} (h : ∀ i, w ≠ encode i) :
    decode w = .error (if rsvdField w = 0 then .unassignedOpcode else .reservedBits) := by
  by_cases hr : rsvdField w = 0
  · have ho : decodeOpcode (opcodeField w) = none := by
      by_contra hsome
      obtain ⟨i, hi⟩ := Option.ne_none_iff_exists'.1 hsome
      exact h i (eq_encode_iff.2 ⟨hr, (decodeOpcode_eq_some _ _).1 hi⟩)
    simp [decode_of_unassigned hr ho, hr]
  · rw [decode_of_reserved hr, if_neg hr]

/-! ## The table (R103) -/

/-- Each row of the table is a command with its encoded word, and every command has its row. -/
theorem mem_legalWords_iff {w : Word} {i : Instr} : (w, i) ∈ legalWords ↔ w = encode i := by
  constructor
  · have hrows : ∀ row ∈ legalWords, row.1 = encode row.2 := by decide
    exact hrows (w, i)
  · rintro rfl
    cases i <;> decide

end Sys2Proof.Proofs.Encoding

namespace Sys2Proof.Proofs

open Sys2Proof.Laws

/-- Settles O1: the table's words are the encoder's (`Encoding.mem_legalWords_iff`), the decoder accepts exactly those
(`Encoding.decode_eq_ok_iff`), and it refuses any other with R104's cause, read off RSVD. -/
theorem decodeExactlyTheTable : Obligations.DecodeExactlyTheTable := by
  simp only [Obligations.DecodeExactlyTheTable, Encoding.mem_legalWords_iff]
  refine ⟨fun w i => Encoding.decode_eq_ok_iff, Encoding.decode_encode, fun w hno => ?_⟩
  simp only [Encoding.decode_of_ne_encode hno, rsvdField_eq_zero]

end Sys2Proof.Proofs
end

section
/-! Proofs of the Matrix Codec's rounding (40_matrix_scrambler.md R132): any other integer is at least 1 - 1/2 away, so the
rounded value is nearest, and a tie is a distance of exactly 1/2. -/

namespace Sys2Proof.Proofs.Rounding

open Sys2Proof.Machine Sys2Proof.Laws

variable {x : ℚ} {n : ℤ}

/-- The triangle inequality over two different integers, of which x lies at most both distances apart. -/
theorem one_le_dist_add_dist {m : ℤ} (h : n ≠ m) : 1 ≤ |x - n| + |x - m| := by
  have hgap : (1 : ℚ) ≤ |(n : ℚ) - m| := by exact_mod_cast Int.one_le_abs (sub_ne_zero.2 h)
  calc (1 : ℚ) ≤ |(n : ℚ) - m| := hgap
    _ ≤ |(n : ℚ) - x| + |x - m| := abs_sub_le _ _ _
    _ = |x - n| + |x - m| := by rw [abs_sub_comm (n : ℚ) x]

theorem dist_roundEven_le (x : ℚ) (n : ℤ) : |x - roundEven x| ≤ |x - n| := by
  by_cases h : n = roundEven x
  · rw [h]
  · have hsum := one_le_dist_add_dist (x := x) h
    have hnear := roundEven_near x
    linarith

theorem dist_roundEven_eq_half_of_tie (hn : n ≠ roundEven x) (htie : |x - n| = |x - roundEven x|) :
    |x - roundEven x| = 1 / 2 := by
  have hsum := one_le_dist_add_dist (x := x) hn
  have hnear := roundEven_near x
  linarith

/-- Only the two branches that compare the parity of the floor leave a distance of 1/2. -/
theorem even_roundEven_of_half (h : |x - roundEven x| = 1 / 2) : Even (roundEven x) := by
  have hbelow : (x.floor : ℚ) ≤ x := Rat.floor_le x
  have habove : x < x.floor + 1 := by simpa using Rat.lt_floor_add_one x
  unfold roundEven at h ⊢
  dsimp only at h ⊢
  split_ifs at h ⊢ with hlow hhigh hpar
  · rw [abs_of_nonneg (by linarith)] at h
    linarith
  · push_cast at h
    rw [abs_of_neg (by linarith)] at h
    linarith
  · exact Int.even_iff.2 hpar
  · exact Int.even_iff.2 (by omega)

end Sys2Proof.Proofs.Rounding

namespace Sys2Proof.Proofs

open Sys2Proof.Laws

/-- Settles O22: the nearest integer by `Rounding.dist_roundEven_le`; a tie is at distance 1/2, where round is even. -/
theorem roundsToNearestTiesToEven : Obligations.RoundsToNearestTiesToEven :=
  ⟨Rounding.dist_roundEven_le,
    fun _ _ hn htie => Rounding.even_roundEven_of_half (Rounding.dist_roundEven_eq_half_of_tie hn htie),
    roundEven_intCast⟩

end Sys2Proof.Proofs
end

section
/-! Proofs of the Matrix Codec's commands (40_matrix_scrambler.md R140, R141): both only move elements, MAT_LOAD by the forward
index of R130 and MAT_STORE by the read-back of R131. -/

namespace Sys2Proof.Proofs.MatrixCodec

open Sys2Proof.Machine Sys2Proof.Laws

variable {V W : Type}

/-! ## MAT_LOAD (R130, R140) -/

theorem exec_matLoad (s : State) :
    exec .matLoad s
      = .next ({ s with mat := matrixBank (toMatrix (bankGet s.vec) s.argOffset) }.complete .ok {}) := rfl

/-- R130's index at an offset that is a natural number. -/
theorem toMatrix_natCast (q : Fin 16 → V) (o : Nat) (r c : Fin 4) :
    toMatrix q (o : Int) r c = q (Fin.ofNat 16 (o + 4 * r.val + c.val)) := by
  rw [← idx16_of_nat]
  push_cast
  rfl

/-! ## MAT_STORE (R131, R141) -/

theorem exec_matStore (s : State) :
    exec .matStore s = .next ({ s with vec := storedVec s.mat s.argOffset }.complete .ok {}) := rfl

/-- The read-back moves elements: it commutes with any function of them. -/
theorem readBack_comp (f : V → W) (w : Fin 16 → V) (o : Int) : readBack (fun j => f (w j)) o = f (readBack w o) := by
  unfold readBack
  split <;> rfl

/-- MAT holds integers, which rounding keeps (R141), so the working list is the bank's own. -/
theorem workingList_bank (mat : Bank Word) :
    workingList (toRat fun r c => (bankMatrix mat r c).toInt) = fun j => (bankGet mat j).toInt := by
  funext j
  simp [bankMatrix]

/-- What MAT_STORE writes is the read-back of MAT's words themselves: truncation undoes the reading as integers. -/
theorem bankGet_storedVec (mat : Bank Word) (o : Int) (i : Fin 16) :
    bankGet (storedVec mat o) i = readBack (bankGet mat) (o - i.val) := by
  calc bankGet (storedVec mat o) i
      = BitVec.ofInt 64 (readBack (fun j => (bankGet mat j).toInt) (o - i.val)) := by
        simp only [storedVec, truncBank, bankGet_bankOf, toSequence, workingList_bank]
    _ = readBack (bankGet mat) (o - i.val) := by
        rw [readBack_comp BitVec.toInt, BitVec.ofInt_toInt]

/-- R131's two cases, with the running offset's residue idx as a natural number. -/
theorem readBack_of_emod_eq (w : Fin 16 → V) {o : Int} {idx : Nat} (h : o % 16 = idx) :
    readBack w o = if idx = 0 then w 0 else w (Fin.ofNat 16 (16 - idx)) := by
  have hlt : idx < 16 := by omega
  have hdist : (16 : Int) - idx = ((16 - idx : Nat) : Int) := by omega
  simp only [readBack, h, hdist, idx16_of_nat, Int.natCast_eq_zero]

end Sys2Proof.Proofs.MatrixCodec

namespace Sys2Proof.Proofs

open Sys2Proof.Machine Sys2Proof.Laws

/-- Settles O16: the bank holds the matrix row by row, and the matrix is read from VEC by R130's index. -/
theorem matLoadReadsVecFromOffset : Obligations.MatLoadReadsVecFromOffset := by
  intro s
  refine ⟨_, MatrixCodec.exec_matLoad s, fun r c => ?_⟩
  rw [bankGet_matrixBank, State.argOffset, MatrixCodec.toMatrix_natCast]

/-- Settles O17: VEC takes MAT's words by the read-back (`MatrixCodec.bankGet_storedVec`), and idx is the running offset's
residue. -/
theorem matStoreReadsBackByDistance : Obligations.MatStoreReadsBackByDistance := by
  intro s
  refine ⟨_, MatrixCodec.exec_matStore s, fun i idx hidx => ?_⟩
  have hres : (s.argOffset - i.val) % 16 = idx := by
    simp only [State.argOffset]
    omega
  rw [MatrixCodec.bankGet_storedVec, MatrixCodec.readBack_of_emod_eq _ hres]

end Sys2Proof.Proofs
end

section
/-! Proofs of the Key Masking Transform (41_key_masking.md): the offsets and the pin matrix of the model are the spec's, so what
OFFS holds and when a pin is singular can be read off them. -/

namespace Sys2Proof.Proofs.KeyMasking

open Sys2Proof.Machine Sys2Proof.Claims Sys2Proof.Laws

/-! ## The offsets (R160, R161) -/

theorem pinSum_eq (pin : Bank Byte) : pinSum pin = pinTotal pin := by
  have hlist : bankList pin = List.ofFn (bankGet pin) := rfl
  rw [pinSum, pinTotal, hlist, List.map_ofFn, List.sum_ofFn]
  rfl

theorem ofs_eq (pin : Bank Byte) (c : Nat) : ofs pin c = offset pin c := by
  rw [ofs, pinSum_eq, offset]

theorem offset_lt (pin : Bank Byte) (c : Nat) : offset pin c < 16 := Nat.mod_lt _ (by decide)

theorem mixSeed_eq (pin : Bank Byte) : mixSeed Config.hw pin = mixS pin := by
  simp only [mixSeed, mixS, pinOffset, tableOffset, ofs_eq, oT]

theorem mixTable_eq (pin : Bank Byte) : mixTable Config.hw pin = mixT pin := by
  simp only [mixTable, mixT, pinOffset, tableOffset, ofs_eq, oT]

/-- No field of OFFS truncates what it is given: offsets are below 16 and mixIndexes below 4. -/
theorem holdsOffsets_offsetsOf (pin : Bank Byte) : HoldsOffsets pin (offsetsOf Config.hw pin) := by
  have hnibble (c : Nat) : (BitVec.ofNat 4 (ofs pin c)).toNat = offset pin c := by
    rw [ofs_eq, BitVec.toNat_ofNat, Nat.mod_eq_of_lt (offset_lt pin c)]
  have hmix (m : Fin 4) : (BitVec.ofNat 2 m.val).toNat = m.val := by
    rw [BitVec.toNat_ofNat, Nat.mod_eq_of_lt m.isLt]
  refine ⟨hnibble _, hnibble _, hnibble _, ?_, ?_⟩
  · rw [offsetsOf, hmix, mixSeed_eq]
  · rw [offsetsOf, hmix, mixTable_eq]

/-! ## The pin matrix (R162) -/

theorem of_pinMatrix (pin : Bank Byte) : Matrix.of (pinMatrix pin) = matP pin := by
  ext r c
  simp only [pinMatrix, matP, Matrix.of_apply, MatrixCodec.toMatrix_natCast, unsignedSeq, pinOffset, ofs_eq]

/-- The flag's expansion of det(P) is the library's determinant. -/
theorem pinSingular_iff (pin : Bank Byte) : pinSingular pin = true ↔ (matP pin).det = 0 := by
  rw [pinSingular, decide_eq_true_iff, det4_eq, of_pinMatrix]

/-! ## PIN_CHECK (R164) -/

theorem exec_pinCheck (s : State) :
    exec .pinCheck s
      = .next ({ s with offs := offsetsOf Config.hw s.pin }.complete .ok { pinsing := pinSingular s.pin }) := rfl

end Sys2Proof.Proofs.KeyMasking

namespace Sys2Proof.Proofs

open Sys2Proof.Machine

/-- Settles O24: OFFS holds the pin's offsets (`KeyMasking.holdsOffsets_offsetsOf`), and PINSING is the test of
det(P) = 0 (`KeyMasking.pinSingular_iff`). -/
theorem pinCheckReportsSingularity : Obligations.PinCheckReportsSingularity := fun s =>
  ⟨_, _, KeyMasking.exec_pinCheck s, KeyMasking.holdsOffsets_offsetsOf s.pin, KeyMasking.pinSingular_iff s.pin⟩

end Sys2Proof.Proofs
end

section
/-! Proofs of the Channel Codec (42_channel_codec.md): patterns are compared with the spec's as numbers. Packing bytes is reading
them in base 256, so an encoded pattern is its digit codes; and a pattern decodes exactly when the bytes after its leading zero
bytes are digit codes. -/

namespace Sys2Proof.Proofs.ChannelCodec

open Sys2Proof.Machine Sys2Proof.Claims Sys2Proof.Laws

/-! ## Concatenation as arithmetic -/

theorem toNat_append_eq_add {m n : Nat} (x : BitVec m) (y : BitVec n) :
    (x ++ y).toNat = x.toNat * 2 ^ n + y.toNat := by
  rw [BitVec.toNat_append, ← Nat.shiftLeft_add_eq_or_of_lt y.isLt, Nat.shiftLeft_eq]

theorem toNat_shiftLeft_or_byte {acc : BitVec 24} (b : Byte) (h : acc.toNat < 2 ^ 16) :
    (acc <<< 8 ||| b.setWidth 24).toNat = 256 * acc.toNat + b.toNat := by
  have hb : b.toNat < 2 ^ 8 := b.isLt
  have hhi : (acc <<< 8).toNat = acc.toNat <<< 8 := by
    rw [BitVec.toNat_shiftLeft, Nat.shiftLeft_eq, Nat.mod_eq_of_lt (by omega)]
  have hlo : (b.setWidth 24).toNat = b.toNat := BitVec.toNat_setWidth_of_le (by decide)
  rw [BitVec.toNat_or, hhi, hlo, ← Nat.shiftLeft_add_eq_or_of_lt hb, Nat.shiftLeft_eq]
  omega

/-- Packing on top of k bytes reads on in base 256, while there is room in 24 bits. -/
theorem toNat_foldl_pack (bs : List Byte) {k : Nat} (acc : BitVec 24) (hacc : acc.toNat < 256 ^ k)
    (hk : k + bs.length ≤ 3) :
    (bs.foldl (fun (acc : BitVec 24) b => (acc <<< 8) ||| b.setWidth 24) acc).toNat
      = bs.foldl (fun n b => 256 * n + b.toNat) acc.toNat := by
  induction bs generalizing k acc with
  | nil => rfl
  | cons b bs ih =>
    rw [List.length_cons] at hk
    have hroom : acc.toNat < 2 ^ 16 :=
      calc acc.toNat < 256 ^ k := hacc
        _ ≤ 256 ^ 2 := Nat.pow_le_pow_right (by decide) (by omega)
        _ = 2 ^ 16 := by decide
    have hstep := toNat_shiftLeft_or_byte b hroom
    have hb : b.toNat < 256 := b.isLt
    rw [List.foldl_cons, List.foldl_cons, ih (k := k + 1) _ (by rw [hstep, Nat.pow_succ]; omega) (by omega), hstep]

theorem toNat_packBytes {bs : List Byte} (h : bs.length ≤ 3) :
    (packBytes bs).toNat = bs.foldl (fun n b => 256 * n + b.toNat) 0 :=
  toNat_foldl_pack bs (k := 0) 0 (by decide) (by omega)

/-! ## Encoding (R200, R205) -/

theorem toNat_digitByte {d : Nat} (h : d ≤ 9) : (digitByte d).toNat = 0x30 + d := by
  rw [digitByte, BitVec.toNat_ofNat, Nat.mod_eq_of_lt (by omega)]

/-- The encoder's pattern of a number of at most three digits is the spec's. -/
theorem toNat_encodeChannel {v : Nat} (h : v ≤ 999) : (encodeChannel v).toNat = channelCode v := by
  have hlen : ((decimalDigits v).map digitByte).length ≤ 3 := by
    unfold decimalDigits
    split_ifs <;> simp
  rw [encodeChannel, toNat_packBytes hlen, decimalDigits, channelCode]
  split_ifs with hone htwo
  · simp only [List.map, List.foldl, toNat_digitByte (show v ≤ 9 by omega)]
    omega
  · simp only [List.map, List.foldl, toNat_digitByte (show v / 10 ≤ 9 by omega),
      toNat_digitByte (show v % 10 ≤ 9 by omega)]
    omega
  · simp only [List.map, List.foldl, toNat_digitByte (show v / 100 ≤ 9 by omega),
      toNat_digitByte (show v / 10 % 10 ≤ 9 by omega), toNat_digitByte (show v % 10 ≤ 9 by omega)]
    omega

theorem toNat_encodePixel {r g b : Nat} (hr : r ≤ 999) (hg : g ≤ 999) (hb : b ≤ 999) :
    (encodePixel r g b).toNat = channelCode r * 2 ^ 48 + channelCode g * 2 ^ 24 + channelCode b := by
  rw [encodePixel, toNat_append_eq_add, toNat_append_eq_add, toNat_encodeChannel hr, toNat_encodeChannel hg,
    toNat_encodeChannel hb]
  omega

/-! ## Decoding (R201 to R203) -/

/-- What `decodeChannel` makes of the bytes after the leading zero bytes (`decodeChannel_eq`). -/
def digitsValue (bs : List Byte) : Option Nat :=
  if bs.isEmpty then none
  else if bs.all isDigit then some (bs.foldl (fun acc b => 10 * acc + (b.toNat - 0x30)) 0)
  else none

theorem decodeChannel_eq (x : BitVec 24) :
    decodeChannel x = digitsValue ((patternBytes x).dropWhile fun b => b == 0) := rfl

theorem isDigit_iff {b : Byte} : isDigit b = true ↔ 0x30 ≤ b.toNat ∧ b.toNat ≤ 0x39 := by
  rw [isDigit, Bool.and_eq_true, decide_eq_true_iff, decide_eq_true_iff]

theorem digitsValue_nil : digitsValue [] = none := rfl

theorem digitsValue_cons_eq_some_iff {b : Byte} {bs : List Byte} {v : Nat} :
    digitsValue (b :: bs) = some v ↔
      (b :: bs).all isDigit = true ∧ (b :: bs).foldl (fun acc b => 10 * acc + (b.toNat - 0x30)) 0 = v := by
  simp only [digitsValue, List.isEmpty_cons, Bool.false_eq_true, if_false, Option.ite_none_right_eq_some,
    Option.some.injEq]

/-- The pattern as a number, in base 256. -/
theorem toNat_eq_bytes (x : BitVec 24) :
    x.toNat = 0x10000 * (x.extractLsb' 16 8).toNat + 0x100 * (x.extractLsb' 8 8).toNat + (x.extractLsb' 0 8).toNat := by
  simp only [BitVec.extractLsb'_toNat, Nat.shiftRight_eq_div_pow]
  have := x.isLt
  omega

/-- `Decodes` by the three bytes: how many are leading zeros, and the others are digits. -/
theorem decodes_bytes_iff {n2 n1 n0 v : Nat} (h2 : n2 < 256) (h1 : n1 < 256) (h0 : n0 < 256) :
    Decodes (0x10000 * n2 + 0x100 * n1 + n0) v ↔
      (n2 = 0 ∧ n1 = 0 ∧ (0x30 ≤ n0 ∧ n0 ≤ 0x39) ∧ v = n0 - 0x30)
        ∨ (n2 = 0 ∧ (0x30 ≤ n1 ∧ n1 ≤ 0x39) ∧ (0x30 ≤ n0 ∧ n0 ≤ 0x39) ∧ v = 10 * (n1 - 0x30) + (n0 - 0x30))
        ∨ ((0x30 ≤ n2 ∧ n2 ≤ 0x39) ∧ (0x30 ≤ n1 ∧ n1 ≤ 0x39) ∧ (0x30 ≤ n0 ∧ n0 ≤ 0x39)
          ∧ v = 100 * (n2 - 0x30) + 10 * (n1 - 0x30) + (n0 - 0x30)) := by
  constructor
  · rintro ⟨d2, d1, d0, hd2, hd1, hd0, ⟨hx, hv⟩ | ⟨hx, hv⟩ | ⟨hx, hv⟩⟩
    · obtain ⟨rfl, rfl, rfl⟩ : n2 = 0 ∧ n1 = 0 ∧ n0 = 0x30 + d0 := by omega
      exact .inl (by omega)
    · obtain ⟨rfl, rfl, rfl⟩ : n2 = 0 ∧ n1 = 0x30 + d1 ∧ n0 = 0x30 + d0 := by omega
      exact .inr (.inl (by omega))
    · obtain ⟨rfl, rfl, rfl⟩ : n2 = 0x30 + d2 ∧ n1 = 0x30 + d1 ∧ n0 = 0x30 + d0 := by omega
      exact .inr (.inr (by omega))
  · rintro (⟨rfl, rfl, hd0, hv⟩ | ⟨rfl, hd1, hd0, hv⟩ | ⟨hd2, hd1, hd0, hv⟩)
    · exact ⟨0, 0, n0 - 0x30, by omega, by omega, by omega, .inl (by omega)⟩
    · exact ⟨0, n1 - 0x30, n0 - 0x30, by omega, by omega, by omega, .inr (.inl (by omega))⟩
    · exact ⟨n2 - 0x30, n1 - 0x30, n0 - 0x30, by omega, by omega, by omega, .inr (.inr (by omega))⟩

/-- The decoder on three bytes, by how many of them are leading zeros. -/
theorem digitsValue_dropWhile_eq_some_iff {b2 b1 b0 : Byte} {v : Nat} :
    digitsValue ([b2, b1, b0].dropWhile fun b => b == 0) = some v ↔
      Decodes (0x10000 * b2.toNat + 0x100 * b1.toNat + b0.toNat) v := by
  rw [decodes_bytes_iff b2.isLt b1.isLt b0.isLt]
  by_cases h2 : b2 = 0
  · have hz2 : b2.toNat = 0 := congrArg BitVec.toNat h2
    by_cases h1 : b1 = 0
    · have hz1 : b1.toNat = 0 := congrArg BitVec.toNat h1
      by_cases h0 : b0 = 0
      · have hz0 : b0.toNat = 0 := congrArg BitVec.toNat h0
        have hrest : ([b2, b1, b0].dropWhile fun b => b == 0) = [] := by simp [h2, h1, h0]
        simp only [hrest, digitsValue_nil, reduceCtorEq, false_iff]
        omega
      · have hrest : ([b2, b1, b0].dropWhile fun b => b == 0) = [b0] := by simpa [h2, h1] using h0
        rw [hrest, digitsValue_cons_eq_some_iff]
        simp only [List.all, Bool.and_true, isDigit_iff, List.foldl]
        omega
    · have hpos : b1.toNat ≠ 0 := BitVec.toNat_ne_iff_ne.2 h1
      have hrest : ([b2, b1, b0].dropWhile fun b => b == 0) = [b1, b0] := by simpa [h2] using h1
      rw [hrest, digitsValue_cons_eq_some_iff]
      simp only [List.all, Bool.and_true, Bool.and_eq_true, isDigit_iff, List.foldl]
      omega
  · have hpos : b2.toNat ≠ 0 := BitVec.toNat_ne_iff_ne.2 h2
    have hrest : ([b2, b1, b0].dropWhile fun b => b == 0) = [b2, b1, b0] := by simpa using h2
    rw [hrest, digitsValue_cons_eq_some_iff]
    simp only [List.all, Bool.and_true, Bool.and_eq_true, isDigit_iff, List.foldl]
    omega

theorem decodeChannel_eq_some_iff {x : BitVec 24} {v : Nat} : decodeChannel x = some v ↔ Decodes x.toNat v := by
  rw [decodeChannel_eq, patternBytes, digitsValue_dropWhile_eq_some_iff, toNat_eq_bytes x]

/-- R203: three digits make at most 999. -/
theorem decodes_le {x v : Nat} (h : Decodes x v) : v ≤ 999 := by
  obtain ⟨d2, d1, d0, hd2, hd1, hd0, hx⟩ := h
  omega

theorem decodeChannel_eq_none {x : BitVec 24} (h : ∀ v, ¬ Decodes x.toNat v) : decodeChannel x = none :=
  Option.eq_none_iff_forall_ne_some.2 fun v hv => h v (decodeChannel_eq_some_iff.1 hv)

/-! ## The commands (R206 to R208) -/

variable {s : State}

theorem exec_encCh_of_le (h : s.chVal.toNat ≤ 255) :
    exec .encCh s = .next ({ s with chPat := encodeChannel s.chVal.toNat }.complete .ok {}) :=
  congrArg _ (if_neg (Nat.not_lt.2 h))

theorem exec_encCh_of_gt (h : 255 < s.chVal.toNat) : exec .encCh s = .next (s.complete .domain {}) :=
  congrArg _ (if_pos h)

theorem exec_decCh_of_some {v : Nat} (h : decodeChannel s.chPat = some v) :
    exec .decCh s = .next ({ s with chVal := BitVec.ofNat 10 v }.complete .ok {}) := by
  simp only [exec, execDecCh, decChCmd, h]

theorem exec_decCh_of_none (h : decodeChannel s.chPat = none) : exec .decCh s = .next (s.complete .decode {}) := by
  simp only [exec, execDecCh, decChCmd, h]

theorem exec_encPix_of_le (hr : s.pixR.toNat ≤ 255) (hg : s.pixG.toNat ≤ 255) (hb : s.pixB.toNat ≤ 255) :
    exec .encPix s
      = .next ({ s with
          pixPatHi := (encodePixel s.pixR.toNat s.pixG.toNat s.pixB.toNat).extractLsb' 64 8
          pixPatLo := (encodePixel s.pixR.toNat s.pixG.toNat s.pixB.toNat).extractLsb' 0 64 }.complete .ok {}) :=
  congrArg _ (if_neg (by omega))

theorem exec_encPix_of_gt (h : 255 < s.pixR.toNat ∨ 255 < s.pixG.toNat ∨ 255 < s.pixB.toNat) :
    exec .encPix s = .next (s.complete .domain {}) :=
  congrArg _ (if_pos h)

/-- PIX_PAT_HI and PIX_PAT_LO are all of the pixel pattern (R208). -/
theorem toNat_hi_lo (x : BitVec 72) : (x.extractLsb' 64 8).toNat * 2 ^ 64 + (x.extractLsb' 0 64).toNat = x.toNat := by
  simp only [BitVec.extractLsb'_toNat, Nat.shiftRight_eq_div_pow]
  have := x.isLt
  omega

end Sys2Proof.Proofs.ChannelCodec

namespace Sys2Proof.Proofs

open Sys2Proof.Machine Sys2Proof.Claims

/-- Settles O30: the pattern written is `channelCode`'s (`ChannelCodec.toNat_encodeChannel`). -/
theorem encChWritesPattern : Obligations.EncChWritesPattern := by
  intro s
  refine ⟨fun h => ⟨_, ChannelCodec.exec_encCh_of_le h, ?_⟩, fun h => ChannelCodec.exec_encCh_of_gt h⟩
  exact ChannelCodec.toNat_encodeChannel (by omega)

/-- Settles O31: acceptance by `ChannelCodec.decodeChannel_eq_some_iff`, and the bound is that of what `Decodes` allows. -/
theorem decodeChannelAccepts : Obligations.DecodeChannelAccepts := fun _ _ =>
  ⟨ChannelCodec.decodeChannel_eq_some_iff,
    fun h => ChannelCodec.decodes_le (ChannelCodec.decodeChannel_eq_some_iff.1 h)⟩

/-- Settles O32: a pattern decodes exactly when `Decodes` gives it a value, and CH_VAL's ten bits hold any value up to 999. -/
theorem decChWritesValue : Obligations.DecChWritesValue := by
  intro s
  constructor
  · intro v h
    have hv : v ≤ 999 := ChannelCodec.decodes_le h
    refine ⟨_, ChannelCodec.exec_decCh_of_some (ChannelCodec.decodeChannel_eq_some_iff.2 h), ?_⟩
    rw [BitVec.toNat_ofNat, Nat.mod_eq_of_lt (by omega)]
  · intro h
    exact ChannelCodec.exec_decCh_of_none (ChannelCodec.decodeChannel_eq_none h)

/-- Settles O33: the two registers together are the pixel pattern (`ChannelCodec.toNat_hi_lo`), which is three channel patterns
in a row (`ChannelCodec.toNat_encodePixel`). -/
theorem encPixWritesPattern : Obligations.EncPixWritesPattern := by
  intro s
  refine ⟨fun hr hg hb => ⟨_, _, ChannelCodec.exec_encPix_of_le hr hg hb, ?_⟩,
    fun h => ChannelCodec.exec_encPix_of_gt h⟩
  rw [ChannelCodec.toNat_hi_lo, ChannelCodec.toNat_encodePixel (by omega) (by omega) (by omega)]

end Sys2Proof.Proofs
end

section
/-! Proofs of the Payload Embedder and Extractor (43_payload.md): a byte is its eight bits, so reading bits back into bytes undoes
writing them out, and writing the bytes read out again gives the bits up to the last whole byte. -/

namespace Sys2Proof.Proofs.Payload

open Sys2Proof.Machine Sys2Proof.Claims

/-! ## One byte (R231) -/

theorem getElem?_byteBits (b : Byte) {j : Nat} (hj : j < 8) : (byteBits b)[j]? = some (b.getLsbD (7 - j)) := by
  interval_cases j <;> rfl

theorem byteBits_injective : Function.Injective byteBits := by
  intro b c h
  apply BitVec.eq_of_getLsbD_eq
  intro i hi
  have hbit := congrArg (fun l => l[7 - i]?) h
  simp only [getElem?_byteBits _ (show 7 - i < 8 by omega), Option.some.injEq] at hbit
  rwa [show 7 - (7 - i) = i by omega] at hbit

theorem byteBits_byteOfBits (b7 b6 b5 b4 b3 b2 b1 b0 : Bool) :
    byteBits (byteOfBits b7 b6 b5 b4 b3 b2 b1 b0) = [b7, b6, b5, b4, b3, b2, b1, b0] := by
  simp only [byteBits, byteOfBits, BitVec.getLsbD_append, BitVec.getLsbD_ofBool]
  rfl

/-! ## Serialization (R231) -/

theorem bytesOf_byteBits_append (b : Byte) (q : List Bool) : bytesOf (byteBits b ++ q) = b :: bytesOf q := by
  have hbyte : byteOfBits (b.getLsbD 7) (b.getLsbD 6) (b.getLsbD 5) (b.getLsbD 4) (b.getLsbD 3) (b.getLsbD 2)
      (b.getLsbD 1) (b.getLsbD 0) = b :=
    byteBits_injective (byteBits_byteOfBits ..)
  simp only [byteBits, List.cons_append, List.nil_append, bytesOf, hbyte]

theorem length_bitsOf (bs : List Byte) : (bitsOf bs).length = 8 * bs.length := by
  induction bs with
  | nil => rfl
  | cons b bs ih =>
    simp only [bitsOf, byteBits, List.length_append, List.length_cons, List.length_nil, ih]
    omega

theorem bytesOf_bitsOf (bs : List Byte) : bytesOf (bitsOf bs) = bs := by
  induction bs with
  | nil => rfl
  | cons b bs ih => rw [bitsOf, bytesOf_byteBits_append, ih]

theorem getElem?_bitsOf (bs : List Byte) (k : Nat) {j : Nat} (hj : j < 8) :
    (bitsOf bs)[8 * k + j]? = (bs[k]?).map fun b => b.getLsbD (7 - j) := by
  induction bs generalizing k with
  | nil => rfl
  | cons b bs ih =>
    have hlen : (byteBits b).length = 8 := rfl
    cases k with
    | zero =>
      rw [bitsOf, List.getElem?_append_left (by omega), Nat.mul_zero, Nat.zero_add, getElem?_byteBits b hj]
      rfl
    | succ k =>
      rw [bitsOf, List.getElem?_append_right (by omega), hlen, show 8 * (k + 1) + j - 8 = 8 * k + j by omega, ih]
      rfl

/-! ## Deserialization (R231) -/

/-- The bytes of a bit sequence hold its bits up to the last whole byte; the rest of fewer than 8 bits is dropped. -/
theorem bitsOf_bytesOf (q : List Bool) : bitsOf (bytesOf q) = q.take (8 * (q.length / 8)) := by
  induction q using bytesOf.induct with
  | case1 b7 b6 b5 b4 b3 b2 b1 b0 rest ih =>
    have hlen : 8 * ((rest.length + 8) / 8) = 8 * (rest.length / 8) + 8 := by omega
    simp only [bytesOf, bitsOf, byteBits_byteOfBits, ih, List.length_cons, hlen, List.take_succ_cons, List.cons_append,
      List.nil_append]
  | case2 q hshort =>
    have hlt : q.length < 8 := by
      by_contra hge
      exact hshort q[0] q[1] q[2] q[3] q[4] q[5] q[6] q[7] (q.drop 8)
        (by simp only [List.getElem_cons_drop, List.drop_zero])
    rw [bytesOf.eq_2 q hshort, Nat.div_eq_of_lt hlt]
    rfl

theorem length_bytesOf (q : List Bool) : (bytesOf q).length = q.length / 8 := by
  have hlen := congrArg List.length (bitsOf_bytesOf q)
  rw [length_bitsOf, List.length_take] at hlen
  omega

theorem getElem?_bytesOf (q : List Bool) {k j : Nat} (hk : k < q.length / 8) (hj : j < 8) :
    ((bytesOf q)[k]?).map (fun b => b.getLsbD (7 - j)) = q[8 * k + j]? := by
  rw [← getElem?_bitsOf _ k hj, bitsOf_bytesOf, List.getElem?_take_of_lt (by omega)]

/-! ## The range check (R235) -/

variable {s : State}

theorem embedOutOfRange_iff {P : Config.Params} : embedOutOfRange P s ↔ ¬ EmbedInRange P s := by
  simp only [embedOutOfRange, EmbedInRange]
  omega

theorem exec_embed_of_not_inRange (h : ¬ EmbedInRange Config.hw s) : exec .embed s = .next (s.complete .range {}) :=
  congrArg _ (if_pos (embedOutOfRange_iff.2 h))

theorem exec_extract_of_gt (h : Config.hw.pixMax < s.npix.toNat) : exec .extract s = .next (s.complete .range {}) :=
  congrArg _ (if_pos h)

end Sys2Proof.Proofs.Payload

namespace Sys2Proof.Proofs

/-- Settles O37: the range check is the first thing either command does, and its completion writes only STATUS. -/
theorem rangeCheckComesFirst : Obligations.RangeCheckComesFirst := fun _ =>
  ⟨Payload.exec_embed_of_not_inRange, Payload.exec_extract_of_gt⟩

/-- Settles O43: the bits of a byte sequence by induction on it; those of the bytes read back are the sequence's own, cut at the
last whole byte (`Payload.bitsOf_bytesOf`). -/
theorem serializationRoundTrip : Obligations.SerializationRoundTrip :=
  ⟨fun bs => ⟨Payload.length_bitsOf bs, Payload.bytesOf_bitsOf bs, fun k _ _ hj => Payload.getElem?_bitsOf bs k hj⟩,
    fun q => ⟨Payload.length_bytesOf q, fun _ _ hk hj => Payload.getElem?_bytesOf q hk hj⟩⟩

end Sys2Proof.Proofs
end

section
/-! Proofs of command control (44_control.md): NOP is the completion of R274 and nothing before it, so what it changes is what
every completion changes. -/

namespace Sys2Proof.Proofs.Control

open Sys2Proof.Machine

/-- The whole effect of a completion (R274): STATUS and the phase, and no other field. -/
theorem complete_eq (s : State) (e : ErrorCode) (f : ResultFlags) :
    s.complete e f = { s with err := e, flags := f, done := true, phase := .idle } := rfl

theorem exec_nop (s : State) : exec .nop s = .next (s.complete .ok {}) := rfl

end Sys2Proof.Proofs.Control

namespace Sys2Proof.Proofs

/-- Settles O15: NOP only completes (`Control.exec_nop`), and a completion writes four fields (`Control.complete_eq`). -/
theorem nopOnlyCompletes : Obligations.NopOnlyCompletes := by
  intro s
  rw [Control.exec_nop, Control.complete_eq]

end Sys2Proof.Proofs
end

section
/-! Proofs of the rest of the encoding (30_encoding.md R101): eight little-endian bytes are all of a word, so reading a
command's bytes back is decoding its word. -/

namespace Sys2Proof.Proofs.CommandBytes

open Sys2Proof.Machine Sys2Proof.Laws

/-- A word is determined by its eight bytes (20_memory.md R74). -/
theorem word_ext {v w : Word} (h : ∀ k, k < 8 → v.extractLsb' (8 * k) 8 = w.extractLsb' (8 * k) 8) : v = w := by
  apply BitVec.eq_of_getLsbD_eq
  intro i hi
  have hbyte := congrArg (fun b => b.getLsbD (i % 8)) (h (i / 8) (by omega))
  simpa [Nat.div_add_mod, Nat.mod_lt] using hbyte

theorem ofLittleBytes_littleBytes (w : Word) : ofLittleBytes (littleBytes 8 w) = w :=
  word_ext fun k hk => ofLittleBytes_get _ k _ hk (littleBytes_get 8 k w hk)

end Sys2Proof.Proofs.CommandBytes

namespace Sys2Proof.Proofs

open Sys2Proof.Laws

/-- Settles O3: the first eight bytes are the command's word again (`CommandBytes.ofLittleBytes_littleBytes`), which
decodes to it. -/
theorem commandBytesRoundTrip : Obligations.CommandBytesRoundTrip := by
  refine ⟨fun i rest => ?_, CommandBytes.ofLittleBytes_littleBytes⟩
  have hlen : (encodeBytes i).length = 8 := littleBytes_length 8 _
  have hlong : ¬ (encodeBytes i ++ rest).length < 8 := by simp [hlen]
  have hword : Machine.ofLittleBytes ((encodeBytes i ++ rest).take 8) = encode i := by
    rw [List.take_left' hlen]
    exact CommandBytes.ofLittleBytes_littleBytes _
  rw [decodeBytes, if_neg hlong, hword, Encoding.decode_encode, List.drop_left' hlen]

/-- Settles O2: the five legal words are the encoder's, and of the two others one has an unassigned opcode and one a
reserved bit. -/
theorem writtenOutWordsDecode : Obligations.WrittenOutWordsDecode :=
  ⟨Encoding.decode_encode .nop, Encoding.decode_encode .matStore, Encoding.decode_encode .unmask,
    Encoding.decode_encode .decPix, Encoding.decode_encode .extract,
    Encoding.decode_of_unassigned (by decide) (by decide), Encoding.decode_of_reserved (by decide)⟩

end Sys2Proof.Proofs
end

section
/-! Proofs of what a whole command can do (44_control.md R273, R274): the outputs each command has on each of its
outcomes, said once, and from that the frames, the error codes and what a failed command leaves alone. -/

namespace Sys2Proof.Proofs.Commands

open Sys2Proof.Machine Sys2Proof.Claims Sys2Proof.Laws

/-- `Outputs s i e u`: command i in state s can end with code e, and u is s with the outputs that it writes in that case.
`exec_outputs` ties it to `exec`. -/
inductive Outputs (s : State) : Instr → ErrorCode → State → Prop
  | nop : Outputs s .nop .ok s
  | matLoad (m : Bank Word) : Outputs s .matLoad .ok { s with mat := m }
  | matStore (v : Bank Word) : Outputs s .matStore .ok { s with vec := v }
  | scramble (m : Bank Word) : Outputs s .scramble .ok { s with mat := m }
  | unscramble (m : Bank Word) : Outputs s .unscramble .ok { s with mat := m }
  | pinCheck : Outputs s .pinCheck .ok { s with offs := offsetsOf Config.hw s.pin }
  | maskSingular : Outputs s .mask .notInvertible { s with offs := offsetsOf Config.hw s.pin }
  | mask (k : Bank Word) : Outputs s .mask .ok { s with offs := offsetsOf Config.hw s.pin, skey := k }
  | unmaskSingular : Outputs s .unmask .notInvertible { s with offs := offsetsOf Config.hw s.pin }
  | unmask (q : Bank Word) : Outputs s .unmask .ok { s with offs := offsetsOf Config.hw s.pin, seedOut := q }
  | encChDomain : Outputs s .encCh .domain s
  | encCh (x : BitVec 24) : Outputs s .encCh .ok { s with chPat := x }
  | decChDecode : Outputs s .decCh .decode s
  | decCh (v : BitVec 10) : Outputs s .decCh .ok { s with chVal := v }
  | encPixDomain : Outputs s .encPix .domain s
  | encPix (hi : Byte) (lo : Word) : Outputs s .encPix .ok { s with pixPatHi := hi, pixPatLo := lo }
  | decPixDecode : Outputs s .decPix .decode s
  | decPix (r g b : BitVec 10) : Outputs s .decPix .ok { s with pixR := r, pixG := g, pixB := b }
  | embedRange : Outputs s .embed .range s
  | embedCapacity : Outputs s .embed .capacity { s with xpix := 0 }
  | embed (h : EmbedInRange Config.hw s) : Outputs s .embed .ok { s with
      mem := embedLoop s.draws s.npix.toNat 0 (messageStream s.draws s) (metadataStream s.draws s) s.mem
      xpix := BitVec.ofNat 32 (min s.npix.toNat (lm s))
      draws := s.draws + 1 }
  | extractRange : Outputs s .extract .range s
  | extract (h : s.npix.toNat ≤ Config.hw.pixMax) :
      Outputs s .extract (extraction s.draws s).error (writeExtraction s (extraction s.draws s))

/-- Every command ends in the completion of one of its outcomes. -/
theorem exec_outputs (i : Instr) (s : State) : ∃ (u : State) (e : ErrorCode) (f : ResultFlags),
    exec i s = .next (u.complete e f) ∧ Outputs s i e u := by
  cases i
  case nop => exact ⟨_, _, _, rfl, .nop⟩
  case matLoad => exact ⟨_, _, _, rfl, .matLoad _⟩
  case matStore => exact ⟨_, _, _, rfl, .matStore _⟩
  case scramble => exact ⟨_, _, _, rfl, .scramble _⟩
  case unscramble => exact ⟨_, _, _, rfl, .unscramble _⟩
  case pinCheck => exact ⟨_, _, _, rfl, .pinCheck⟩
  case mask =>
    simp only [exec, execMask, maskCmd]
    split
    · exact ⟨_, _, _, rfl, .maskSingular⟩
    · exact ⟨_, _, _, rfl, .mask _⟩
  case unmask =>
    simp only [exec, execUnmask, unmaskCmd]
    split
    · exact ⟨_, _, _, rfl, .unmaskSingular⟩
    · exact ⟨_, _, _, rfl, .unmask _⟩
  case encCh =>
    simp only [exec, execEncCh, encChCmd]
    split
    · exact ⟨_, _, _, rfl, .encChDomain⟩
    · exact ⟨_, _, _, rfl, .encCh _⟩
  case decCh =>
    simp only [exec, execDecCh, decChCmd]
    split
    · exact ⟨_, _, _, rfl, .decChDecode⟩
    · exact ⟨_, _, _, rfl, .decCh _⟩
  case encPix =>
    simp only [exec, execEncPix, encPixCmd]
    split
    · exact ⟨_, _, _, rfl, .encPixDomain⟩
    · exact ⟨_, _, _, rfl, .encPix _ _⟩
  case decPix =>
    simp only [exec, execDecPix, decPixCmd]
    split
    · exact ⟨_, _, _, rfl, .decPixDecode⟩
    · exact ⟨_, _, _, rfl, .decPix _ _ _⟩
  case embed =>
    simp only [exec, execEmbed, embedCmd]
    split_ifs with hrange hcap
    · exact ⟨_, _, _, rfl, .embedRange⟩
    · exact ⟨_, _, _, rfl, .embedCapacity⟩
    · exact ⟨_, _, _, rfl, .embed (by rwa [Payload.embedOutOfRange_iff, not_not] at hrange)⟩
  case extract =>
    simp only [exec, execExtract, extractCmd]
    split_ifs with hrange
    · exact ⟨_, _, _, rfl, .extractRange⟩
    · exact ⟨_, _, _, rfl, .extract (Nat.not_lt.1 hrange)⟩

variable {i : Instr} {s t u : State} {e : ErrorCode}

/-- The answer of a command is the completion of one of its outcomes. -/
theorem of_exec (h : exec i s = .next t) : ∃ u e f, t = u.complete e f ∧ Outputs s i e u := by
  obtain ⟨u, e, f, hexec, hout⟩ := exec_outputs i s
  refine ⟨u, e, f, ?_, hout⟩
  rw [h] at hexec
  injection hexec

/-- EXTRACT that stays in range reports OK or CAPACITY (R240). -/
theorem error_cases (x : Extraction) : x.error = .ok ∨ x.error = .capacity := by
  unfold Extraction.error
  split
  · exact .inl rfl
  · exact .inr rfl

/-! ## What the outcomes leave unchanged -/

/-- R38: the outputs are among the registers of the table, so any register is either listed for the command or
untouched by each of its outcomes. -/
theorem readReg_eq (h : Outputs s i e u) {r : RegName} (hr : tableWrites i r = false) : readReg u r = readReg s r := by
  cases h <;> cases r <;> first | rfl | cases hr

/-- R78: two commands write buffer bytes. -/
theorem mem_eq (h : Outputs s i e u) (hem : i ≠ .embed) (hex : i ≠ .extract) : u.mem = s.mem := by
  cases h with
  | embedRange | embedCapacity | embed => exact absurd rfl hem
  | extractRange | extract => exact absurd rfl hex
  | _ => rfl

/-- R273: a failed command has no outputs but OFFS for MASK and UNMASK, and XPIX for EMBED's CAPACITY. -/
theorem eq_of_failed (h : Outputs s i e u) (he : e ≠ .ok) (hcap : i ≠ .extract ∨ e ≠ .capacity) :
    (u = s ∧ ¬ (i = .embed ∧ e = .capacity))
      ∨ ((i = .mask ∨ i = .unmask) ∧ u = { s with offs := offsetsOf Config.hw s.pin })
      ∨ (i = .embed ∧ e = .capacity ∧ u = { s with xpix := 0 }) := by
  cases h with
  | maskSingular => exact .inr (.inl ⟨.inl rfl, rfl⟩)
  | unmaskSingular => exact .inr (.inl ⟨.inr rfl, rfl⟩)
  | embedCapacity => exact .inr (.inr ⟨rfl, rfl, rfl⟩)
  | encChDomain | decChDecode | encPixDomain | decPixDecode | embedRange | extractRange => exact .inl ⟨rfl, by simp⟩
  | extract =>
    rcases error_cases (extraction s.draws s) with h | h
    · exact absurd h he
    · exact absurd h (hcap.resolve_left (fun hne => hne rfl))
  | _ => exact absurd rfl he

/-- A register other than OFFS does not show OFFS. -/
theorem readReg_with_offs (s : State) (o : OffsFields) {r : RegName} (h : r ≠ .offs) :
    readReg { s with offs := o } r = readReg s r := by
  cases r with
  | offs => exact absurd rfl h
  | _ => rfl

/-- A register other than XPIX does not show XPIX. -/
theorem readReg_with_xpix (s : State) (x : BitVec 32) {r : RegName} (h : r ≠ .xpix) :
    readReg { s with xpix := x } r = readReg s r := by
  cases r with
  | xpix => exact absurd rfl h
  | _ => rfl

/-! ## The lengths of the streams (R231, R232) -/

theorem length_messageStream (d : Nat) (s : State) : (messageStream d s).length = lm s := by
  rw [messageStream, List.length_append, Payload.length_bitsOf, engineBytes, List.length_map, List.length_range]
  rfl

theorem length_metadataStream (d : Nat) (s : State) : (metadataStream d s).length = ld s := by
  rw [metadataStream, List.length_append, Payload.length_bitsOf, engineBytes, List.length_map, List.length_range]
  rfl

/-! ## How far EXTRACT gets (R238, R239) -/

theorem scanning_extraction (d : Nat) (s : State) :
    Scanning (fun p => lastBit (engineByte d s.mem (greenAt p))) (fun p => lastBit (engineByte d s.mem (blueAt p)))
      (extraction d s) :=
  (scanning_extractLoop _ (scanning_start _ _)).1

theorem extraction_pixels_le (d : Nat) (s : State) : (extraction d s).pixels ≤ s.npix.toNat := by
  have h := (scanning_extractLoop s.npix.toNat (scanning_start (fun p => lastBit (engineByte d s.mem (greenAt p)))
    (fun p => lastBit (engineByte d s.mem (blueAt p))))).2.1
  exact h.trans_eq (Nat.zero_add _)

theorem length_withoutMarker_le (found : Bool) (acc : List Bool) : (withoutMarker found acc).length ≤ acc.length := by
  unfold withoutMarker
  split
  · exact List.length_take_le' _ _
  · exact le_rfl

theorem length_msgBits_le (d : Nat) (s : State) : (extraction d s).msgBits.length ≤ s.npix.toNat := by
  calc (extraction d s).msgBits.length ≤ (extraction d s).msg.length := length_withoutMarker_le _ _
    _ = (extraction d s).pixels := by rw [(scanning_extraction d s).msg.acc, prefixOf_length]
    _ ≤ s.npix.toNat := extraction_pixels_le d s

theorem length_metBits_le (d : Nat) (s : State) : (extraction d s).metBits.length ≤ s.npix.toNat := by
  obtain ⟨n, hn, hscan, -⟩ := (scanning_extraction d s).met
  calc (extraction d s).metBits.length ≤ (extraction d s).met.length := length_withoutMarker_le _ _
    _ = n := by rw [hscan.acc, prefixOf_length]
    _ ≤ (extraction d s).pixels := hn
    _ ≤ s.npix.toNat := extraction_pixels_le d s

/-- A count of whole bytes fits its 32-bit register, as the bits come from at most NPIX pixels. -/
theorem toNat_byteCount {n : Nat} (h : n ≤ s.npix.toNat) : (BitVec.ofNat 32 (n / 8)).toNat = n / 8 := by
  have := s.npix.isLt
  rw [BitVec.toNat_ofNat, Nat.mod_eq_of_lt (by omega)]

theorem toNat_xmsgLen_writeExtraction (d : Nat) (s : State) :
    (writeExtraction s (extraction d s)).xmsgLen.toNat = (bytesOf (extraction d s).msgBits).length := by
  rw [Payload.length_bytesOf, ← toNat_byteCount (length_msgBits_le d s)]
  rfl

theorem toNat_xmetaLen_writeExtraction (d : Nat) (s : State) :
    (writeExtraction s (extraction d s)).xmetaLen.toNat = (bytesOf (extraction d s).metBits).length := by
  rw [Payload.length_bytesOf, ← toNat_byteCount (length_metBits_le d s)]
  rfl

/-- EXTRACT writes no byte outside the counts it reports. -/
theorem read?_writeExtraction_frame {d a : Nat} {s : State}
    (hmsg : a < msgBase ∨ msgBase + (writeExtraction s (extraction d s)).xmsgLen.toNat ≤ a)
    (hmet : a < metaBase ∨ metaBase + (writeExtraction s (extraction d s)).xmetaLen.toNat ≤ a) :
    Memory.read? (writeExtraction s (extraction d s)).mem a = Memory.read? s.mem a := by
  rw [toNat_xmsgLen_writeExtraction] at hmsg
  rw [toNat_xmetaLen_writeExtraction] at hmet
  exact (read?_writeList_outside _ _ hmet).trans (read?_writeList_outside _ _ hmsg)

end Sys2Proof.Proofs.Commands

namespace Sys2Proof.Proofs

open Sys2Proof.Machine Sys2Proof.Claims Sys2Proof.Laws

/-- Settles O8: every command ends in a completion, of a state that has the other fields as they were. -/
theorem everyCommandCompletes : Obligations.EveryCommandCompletes := by
  intro i s
  obtain ⟨t, e, f, hexec, hrest⟩ := exec_completes i s
  exact ⟨t.complete e f, hexec, rfl, rfl, hrest⟩

/-- Settles O9: the code of each outcome that a command has. -/
theorem errorCodesByCommand : Obligations.ErrorCodesByCommand := by
  intro i s t h
  obtain ⟨u, e, f, rfl, hout⟩ := Commands.of_exec h
  cases hout with
  | extract =>
    rcases Commands.error_cases (extraction s.draws s) with h | h <;> simp [h]
  | _ => simp

/-- Settles O10: a completion shows only in STATUS, and the outputs are in the table's registers. -/
theorem registerFrameOfEveryCommand : Obligations.RegisterFrameOfEveryCommand := by
  intro i s t r h hr htable
  obtain ⟨u, e, f, rfl, hout⟩ := Commands.of_exec h
  rw [readReg_complete u e f r hr, Commands.readReg_eq hout htable]

/-- Settles O11: no outcome of another command has memory among its outputs. -/
theorem registerCommandsKeepMemory : Obligations.RegisterCommandsKeepMemory := by
  intro i s t hem hex h a
  obtain ⟨u, e, f, rfl, hout⟩ := Commands.of_exec h
  rw [complete_mem, Commands.mem_eq hout hem hex]

/-- Settles O12: only the outcome that runs the embedding loop writes bytes, and those are the loop's
(`read?_embedLoop_frame`). -/
theorem embedMemoryFrame : Obligations.EmbedMemoryFrame := by
  intro s t h a hblue hgreen
  obtain ⟨u, e, f, rfl, hout⟩ := Commands.of_exec h
  rw [complete_mem]
  cases hout with
  | embedRange => rfl
  | embedCapacity => rfl
  | embed =>
    refine read?_embedLoop_frame _ _ _ _ _ _ _ (fun k hk hm => ?_) (fun k hk hm hd => ?_)
    · rw [Commands.length_messageStream] at hm
      rw [Nat.zero_add]
      exact hblue k (lt_min hk hm)
    · rw [Commands.length_messageStream] at hm
      rw [Commands.length_metadataStream] at hd
      rw [Nat.zero_add]
      exact hgreen k (lt_min hk hm) hd

/-- Settles O13: EXTRACT writes two runs of bytes, each as long as the count it reports. -/
theorem extractMemoryFrame : Obligations.ExtractMemoryFrame := by
  intro s t h a hmsg hmet
  obtain ⟨u, e, f, rfl, hout⟩ := Commands.of_exec h
  cases hout with
  | extractRange => rfl
  | extract => exact Commands.read?_writeExtraction_frame hmsg hmet

/-- Settles O14: the failing outcomes have no outputs but R273's three exceptions (`Commands.eq_of_failed`). -/
theorem failedCommandWritesNoOutput : Obligations.FailedCommandWritesNoOutput := by
  intro i s t h he hcap
  obtain ⟨u, e, f, rfl, hout⟩ := Commands.of_exec h
  rw [complete_err] at he hcap ⊢
  simp only [complete_mem, complete_xpix]
  rcases Commands.eq_of_failed hout he hcap with ⟨rfl, hno⟩ | ⟨hi, rfl⟩ | ⟨rfl, hcode, rfl⟩
  · exact ⟨fun _ => rfl, fun r hr _ _ => readReg_complete u e f r hr, fun hem hcode => absurd ⟨hem, hcode⟩ hno⟩
  · refine ⟨fun _ => rfl, fun r hr hoffs _ => ?_, fun hem _ => ?_⟩
    · rw [readReg_complete _ e f r hr, Commands.readReg_with_offs s _ fun h => hoffs ⟨h, hi⟩]
    · rcases hi with rfl | rfl <;> cases hem
  · refine ⟨fun _ => rfl, fun r hr _ hxpix => ?_, fun _ _ => rfl⟩
    rw [readReg_complete _ e f r hr, Commands.readReg_with_xpix s _ fun h => hxpix ⟨h, rfl, hcode⟩]

end Sys2Proof.Proofs
end

section
/-! Proofs of the three registers whose writes have rules of their own (10_state.md R23, R24, 44_control.md R271), by
the offsets that the statements write out. -/

namespace Sys2Proof.Proofs.ControlRegs

open Sys2Proof.Machine Sys2Proof.Laws
open Config (Params)

theorem hostOp_write_ctrl (P : Params) (s : State) (v : Word) : hostOp P s (.write 0x008 8 v) = writeCtrl P s v :=
  hostOp_write_reg P s .ctrl v

theorem hostOp_write_status (P : Params) (s : State) (v : Word) : hostOp P s (.write 0x010 8 v) = writeStatus s v :=
  hostOp_write_reg P s .status v

theorem hostOp_write_cmd (P : Params) {s : State} (h : s.busy = false) (w : Word) :
    hostOp P s (.write 0x018 8 w) = s.issue w := by
  have hwrite := hostOp_write_reg P s .cmd w
  rwa [writeReg, h] at hwrite

theorem writeCtrl_of_reset (P : Params) (s : State) {v : Word} (h : v.getLsbD 1 = true) :
    writeCtrl P s v = softReset P s := if_pos h

theorem writeCtrl_of_no_reset (P : Params) (s : State) {v : Word} (h : v.getLsbD 1 = false) :
    writeCtrl P s v = { s with ie := v.getLsbD 0, strict := v.getLsbD 2 } :=
  if_neg (by rw [h]; exact Bool.false_ne_true)

end Sys2Proof.Proofs.ControlRegs
end

section
/-! Proofs of the step (44_control.md R270 to R275): whose turn it is, that every step answers a next state, and that
the latency of a command in flight counts down to its completion. -/

namespace Sys2Proof.Proofs.Sequencer

open Sys2Proof.Machine Sys2Proof.Claims Sys2Proof.Laws

variable {s t : State} {w : Word} {st : Bool}

theorem busy_of_phase (h : s.phase = .busy w st) : s.busy = true := by simp [State.busy, h]

theorem busy_eq_false_of_phase (h : s.phase = .idle) : s.busy = false := by simp [State.busy, h]

theorem busy_iff : s.busy = true ↔ s.phase ≠ .idle := by
  cases h : s.phase <;> simp [State.busy, h]

theorem engineTurn_iff : engineTurn s = true ↔ s.busy = true ∧ (s.latency = 0 ∨ s.host = []) := by
  simp [engineTurn]

theorem engineTurn_of_phase (hp : s.phase = .busy w st) (ht : s.latency = 0 ∨ s.host = []) : engineTurn s = true :=
  engineTurn_iff.2 ⟨busy_of_phase hp, ht⟩

/-! ## The engine's turn -/

theorem step_of_legal {i : Instr} (hp : s.phase = .busy w st) (ht : s.latency = 0 ∨ s.host = [])
    (hd : decode w = .ok i) : step s = exec i s := by
  simp [step, nextStep, engineTurn_of_phase hp ht, engineStep, State.inFlight, hp, hd]

theorem step_of_illegal {x : DecodeError} (hp : s.phase = .busy w st) (ht : s.latency = 0 ∨ s.host = [])
    (hd : decode w = .error x) : step s = .next (s.complete .illegal {}) := by
  simp [step, nextStep, engineTurn_of_phase hp ht, engineStep, State.inFlight, hp, hd, completeIllegal]

/-- R274, R275: the engine's turn ends the word in flight, legal or not, in a completion that has CTRL as it was. -/
theorem step_completes (hp : s.phase = .busy w st) (ht : s.latency = 0 ∨ s.host = []) :
    ∃ (u : State) (e : ErrorCode) (f : ResultFlags), step s = .next (u.complete e f) ∧ u.ie = s.ie := by
  cases hd : decode w with
  | ok i =>
    obtain ⟨u, e, f, hexec, -, -, hie, -⟩ := exec_completes i s
    exact ⟨u, e, f, (step_of_legal hp ht hd).trans hexec, hie⟩
  | error x => exact ⟨s, _, _, step_of_illegal hp ht hd, rfl⟩

/-! ## The host's turn -/

theorem step_of_host {op : HostOp} {rest : List HostOp} (ht : s.phase = .idle ∨ 0 < s.latency)
    (hh : s.host = op :: rest) :
    step s
      = .next { hostOp Config.hw { s with host := rest, latency := s.latency - 1 } op with draws := s.draws + 1 } := by
  have hturn : engineTurn s = false := by
    rw [Bool.eq_false_iff, Ne, engineTurn_iff, busy_iff, hh]
    rintro ⟨hbusy, hlat | hnil⟩
    · rcases ht with hidle | hpos
      · exact hbusy hidle
      · omega
    · cases hnil
  simp only [step, nextStep, hturn, Bool.false_eq_true, if_false, hostStep, hh]

/-! ## No step stops (R298) -/

theorem step_answers (s : State) : ∃ t, step s = .next t := by
  rcases step_cases s with ⟨w, st, i, -, -, -, h⟩ | ⟨w, st, x, -, -, -, h⟩ | ⟨-, h⟩
  · obtain ⟨t, e, f, hexec, -⟩ := exec_completes i s
    exact ⟨_, h.trans hexec⟩
  · exact ⟨_, h⟩
  · exact ⟨_, h⟩

theorem core_run_succ {M : Host.Core} {a b : M.State} (h : M.step a = .next b) (n : Nat) :
    M.run (n + 1) a = M.run n b := by
  rw [Host.Core.run, h]

theorem run_succ (h : step s = .next t) (n : Nat) : Sys2Proof.core.run (n + 1) s = Sys2Proof.core.run n t :=
  core_run_succ h n

theorem neverStops (s : State) : NeverStops s := by
  intro n
  induction n generalizing s with
  | zero => exact ⟨s, rfl⟩
  | succ n ih =>
    obtain ⟨t, ht⟩ := step_answers s
    obtain ⟨u, hu⟩ := ih t
    exact ⟨u, (run_succ ht n).trans hu⟩

/-! ## The latency (R272, R331) -/

/-- While Busy a host write leaves the count alone, or it is the soft reset that ends the command. -/
theorem hostWrite_latency (P : Config.Params) (h : s.busy = true) (a n : Nat) (v : Word) :
    (hostWrite P s a n v).busy = false
      ∨ ((hostWrite P s a n v).busy = true ∧ (hostWrite P s a n v).latency = s.latency) := by
  rcases hostWrite_cases P s a n v with ⟨-, e⟩ | ⟨-, e⟩ | ⟨-, e⟩ | ⟨-, e⟩ | ⟨hb, -⟩ | ⟨hb, -⟩ | ⟨hb, -⟩
  · exact .inr (by rw [e]; exact ⟨h, rfl⟩)
  · rw [e, writeCtrl]
    split
    · exact .inl rfl
    · exact .inr ⟨h, rfl⟩
  · exact .inr (by rw [e]; exact ⟨h, rfl⟩)
  · exact .inr (by rw [e]; exact ⟨h, rfl⟩)
  all_goals rw [h] at hb; cases hb

/-- While Busy no host operation makes the command in flight wait longer; the two resets end it. -/
theorem hostOp_latency (P : Config.Params) (h : s.busy = true) (op : HostOp) :
    (hostOp P s op).busy = false ∨ ((hostOp P s op).busy = true ∧ (hostOp P s op).latency = s.latency) := by
  cases op with
  | read a n => exact .inr (by rw [hostOp, hostRead_eq]; exact ⟨h, rfl⟩)
  | write a n v => exact hostWrite_latency P h a.toNat n v
  | wait => exact .inr (by rw [hostOp, hostRead_eq, if_pos h]; exact ⟨h, rfl⟩)
  | powerOn => exact .inl rfl

/-- A step with a command in flight ends it or uses up one host step of its latency. -/
theorem step_of_busy (h : s.busy = true) :
    ∃ t, step s = .next t ∧ (t.busy = false ∨ (t.busy = true ∧ t.latency + 1 = s.latency)) := by
  obtain ⟨w, st, hp⟩ : ∃ w st, s.phase = .busy w st := by
    cases hp : s.phase with
    | idle => exact absurd hp (busy_iff.1 h)
    | busy w st => exact ⟨w, st, rfl⟩
  by_cases ht : s.latency = 0 ∨ s.host = []
  · obtain ⟨u, e, f, hstep, -⟩ := step_completes hp ht
    exact ⟨_, hstep, .inl (complete_busy u e f)⟩
  · obtain ⟨hlat, hhost⟩ := not_or.1 ht
    obtain ⟨op, rest, hops⟩ := List.exists_cons_of_ne_nil hhost
    refine ⟨_, step_of_host (.inr (Nat.pos_of_ne_zero hlat)) hops, ?_⟩
    rcases hostOp_latency Config.hw (s := { s with host := rest, latency := s.latency - 1 }) h op with hidle | ⟨hb, hl⟩
    · exact .inl hidle
    · refine .inr ⟨hb, ?_⟩
      show (hostOp Config.hw { s with host := rest, latency := s.latency - 1 } op).latency + 1 = s.latency
      rw [hl]
      exact Nat.sub_add_cancel (Nat.pos_of_ne_zero hlat)

/-- By induction on the latency: the bound is one step more than it. -/
theorem run_reaches_idle (n : Nat) (s : State) (hn : s.latency = n) (h : s.busy = true) :
    ∃ k t, k ≤ n + 1 ∧ Sys2Proof.core.run k s = .next t ∧ t.busy = false := by
  induction n generalizing s with
  | zero =>
    obtain ⟨t, hstep, hidle | ⟨-, hlat⟩⟩ := step_of_busy h
    · exact ⟨1, t, le_rfl, run_succ hstep 0, hidle⟩
    · omega
  | succ n ih =>
    obtain ⟨t, hstep, hidle | ⟨hbusy, hlat⟩⟩ := step_of_busy h
    · exact ⟨1, t, by omega, run_succ hstep 0, hidle⟩
    · obtain ⟨k, u, hk, hrun, hidle⟩ := ih t (by omega) hbusy
      exact ⟨k + 1, u, by omega, (run_succ hstep k).trans hrun, hidle⟩

end Sys2Proof.Proofs.Sequencer

namespace Sys2Proof.Proofs

open Sys2Proof.Machine Sys2Proof.Laws

/-- Settles O4: `Sequencer.step_of_legal`. -/
theorem stepRunsDecodedCommand : Obligations.StepRunsDecodedCommand := fun _ _ _ _ hp ht hd =>
  Sequencer.step_of_legal hp ht hd

/-- Settles O5: `Sequencer.step_of_host`. -/
theorem stepPerformsHostOperation : Obligations.StepPerformsHostOperation := fun _ _ _ ht hh =>
  Sequencer.step_of_host ht hh

/-- Settles O6: the host's operation is a write at CMD's offset, which issues the word while Idle. -/
theorem writeToCmdIssues : Obligations.WriteToCmdIssues := by
  intro s w rest hp hh
  have hidle : State.busy { s with host := rest, latency := s.latency - 1 } = false :=
    Sequencer.busy_eq_false_of_phase hp
  rw [Sequencer.step_of_host (.inl hp) hh, ControlRegs.hostOp_write_cmd Config.hw hidle]
  rfl

/-- Settles O7: a word outside the table decodes to an error (O1), and its completion writes only STATUS and the phase.
-/
theorem illegalWordCompletes : Obligations.IllegalWordCompletes := by
  intro s w st hp ht hno
  exact Sequencer.step_of_illegal hp ht (decodeExactlyTheTable.2.2 w hno)

/-- Settles O57: every step answers, so every run does, by induction on its length. -/
theorem noRunStops : Obligations.NoRunStops := Sequencer.neverStops

/-- Settles O60: each step from a busy state ends the command or lowers its latency (`Sequencer.step_of_busy`). -/
theorem busyEndsWithinLatency : Obligations.BusyEndsWithinLatency := fun s h =>
  Sequencer.run_reaches_idle s.latency s rfl h

end Sys2Proof.Proofs
end

section
/-! Proofs of the machine's invariant: each of its four parts is kept by every outcome of a command and by every host
operation. -/

namespace Sys2Proof.Proofs.Invariant

open Sys2Proof.Machine Sys2Proof.Claims Sys2Proof.Laws
open Config (Params)

variable {P : Params} {s t u : State} {m : Memory}

theorem hw_wf : Config.hw.wf = true := Config.chosen.ok

/-- R6: the sizes of the buffers against each other. -/
theorem capacities (hP : P.wf = true) :
    P.pixMax ≤ 262144 ∧ P.pixMax / 8 ≤ P.msgMax ∧ P.pixMax / 8 ≤ P.metaMax := by
  simp only [Params.wf, Config.capacitiesOk, Bool.and_eq_true, decide_eq_true_eq] at hP
  omega

/-! ## The memory (R34, R78) -/

theorem memoryInv_nil : MemoryInv P [] := ⟨wf_nil, fun _ h => absurd h List.not_mem_nil⟩

theorem memoryInv_writeList (h : MemoryInv P m) {b : Buffer} {a : Nat} {vs : List Byte}
    (hin : Inside P b a vs.length) : MemoryInv P (Memory.writeList m a vs) where
  canonical := writeList_wf a vs h.canonical
  inBuffers c hc := by
    rcases mem_writeList hc with ⟨hlo, hhi⟩ | hold
    · obtain ⟨hbase, hend⟩ := hin
      exact Access.inSomeBuffer_iff.2 ⟨b, by omega, by omega⟩
    · exact h.inBuffers c hold

theorem memoryInv_embedLoop (h : MemoryInv P m) {n : Nat} (hn : n ≤ P.pixMax) (d : Nat) (msg met : List Bool) :
    MemoryInv P (embedLoop d n 0 msg met m) where
  canonical := embedLoop_wf d n 0 msg met h.canonical
  inBuffers c hc := by
    rcases mem_embedLoop hc with hold | ⟨k, hk, hpix⟩
    · exact h.inBuffers c hold
    · refine Access.inSomeBuffer_iff.2 ⟨.pixmem, ?_, ?_⟩ <;>
        simp only [Buffer.base, Buffer.size, blueAt, greenAt] at hpix ⊢ <;> omega

theorem memoryInv_writeExtraction (hP : P.wf = true) (h : MemoryInv P s.mem) (hn : s.npix.toNat ≤ P.pixMax) (d : Nat) :
    MemoryInv P (writeExtraction s (extraction d s)).mem := by
  obtain ⟨-, hmsgMax, hmetaMax⟩ := capacities hP
  have hmsg := Commands.length_msgBits_le d s
  have hmet := Commands.length_metBits_le d s
  refine memoryInv_writeList (b := .metabuf) (memoryInv_writeList (b := .msgbuf) h ?_) ?_ <;>
    simp only [Inside, Buffer.base, Buffer.size, Payload.length_bytesOf] <;> omega

theorem memoryInv_select (f : Nat → Bool) {old new : Memory} (hold : MemoryInv P old) (hnew : MemoryInv P new) :
    MemoryInv P (Memory.select f old new) where
  canonical := select_wf f new hold.canonical
  inBuffers c hc := (mem_select hc).elim (hnew.inBuffers c) (hold.inBuffers c)

theorem memoryInv_embedCmd (h : MemoryInv P s.mem) : MemoryInv P (embedCmd P s).mem := by
  unfold embedCmd
  split_ifs with hrange hcap
  · exact h
  · exact h
  · exact memoryInv_embedLoop h (by simp only [embedOutOfRange] at hrange; omega) _ _ _

theorem memoryInv_extractCmd (hP : P.wf = true) (h : MemoryInv P s.mem) : MemoryInv P (extractCmd P s).mem := by
  unfold extractCmd
  split_ifs with hrange
  · exact h
  · exact memoryInv_writeExtraction hP h (Nat.not_lt.1 hrange) _

theorem memoryInv_abortedMemory (hP : P.wf = true) (h : MemoryInv P s.mem) : MemoryInv P (abortedMemory P s) := by
  unfold abortedMemory
  split
  · exact memoryInv_select _ h (memoryInv_embedCmd h)
  · exact memoryInv_select _ h (memoryInv_extractCmd hP h)
  · exact h

/-! ## OFFS (R28) and the counts (R239) -/

theorem offsInv_offsetsOf (pin : Bank Byte) : OffsInv (offsetsOf Config.hw pin) := by
  obtain ⟨hop, -, hot, hmixs, hmixt⟩ := KeyMasking.holdsOffsets_offsetsOf pin
  constructor
  · rw [hmixs, hop, hot]
    rfl
  · rw [hmixt, hop, hot]
    rfl

theorem countInv_writeExtraction (hn : s.npix.toNat ≤ P.pixMax) (d : Nat) :
    CountInv P (writeExtraction s (extraction d s)) where
  xpix := (Nat.mod_le _ _).trans ((Commands.extraction_pixels_le d s).trans hn)
  xmsg := by
    have := Commands.length_msgBits_le d s
    rw [Commands.toNat_xmsgLen_writeExtraction, Payload.length_bytesOf]
    omega
  xmeta := by
    have := Commands.length_metBits_le d s
    rw [Commands.toNat_xmetaLen_writeExtraction, Payload.length_bytesOf]
    omega

/-! ## Commands -/

/-- What the invariant says of the outputs alone: all of it but the phase. -/
structure OutputInv (P : Params) (s : State) : Prop where
  memory : MemoryInv P s.mem
  offs : OffsInv s.offs
  counts : CountInv P s

theorem outputInv_of_inv (h : s.Inv P) : OutputInv P s := ⟨h.memory, h.offs, h.counts⟩

theorem outputInv_of_outputs {i : Instr} {e : ErrorCode} (h : OutputInv Config.hw s)
    (hout : Commands.Outputs s i e u) : OutputInv Config.hw u := by
  obtain ⟨hmem, hoffs, hxpix, hxmsg, hxmeta⟩ := h
  cases hout with
  | pinCheck | maskSingular | mask | unmaskSingular | unmask =>
    exact ⟨hmem, offsInv_offsetsOf s.pin, hxpix, hxmsg, hxmeta⟩
  | embedCapacity => exact ⟨hmem, hoffs, Nat.zero_le _, hxmsg, hxmeta⟩
  | embed hrange =>
    have hn := hrange.1
    exact ⟨memoryInv_embedLoop hmem hn _ _ _, hoffs, (Nat.mod_le _ _).trans ((min_le_left _ _).trans hn), hxmsg, hxmeta⟩
  | extract hn => exact ⟨memoryInv_writeExtraction hw_wf hmem hn _, hoffs, countInv_writeExtraction hn _⟩
  | _ => exact ⟨hmem, hoffs, hxpix, hxmsg, hxmeta⟩

/-- A completion leaves no command in flight. -/
theorem inv_complete (h : OutputInv P u) (e : ErrorCode) (f : ResultFlags) : (u.complete e f).Inv P where
  memory := h.memory
  offs := h.offs
  counts := ⟨h.counts.xpix, h.counts.xmsg, h.counts.xmeta⟩
  phase w st hp := by cases hp

theorem inv_exec {i : Instr} (h : s.Inv Config.hw) (hexec : exec i s = .next t) : t.Inv Config.hw := by
  obtain ⟨u, e, f, rfl, hout⟩ := Commands.of_exec hexec
  exact inv_complete (outputInv_of_outputs (outputInv_of_inv h) hout) e f

/-! ## Host operations -/

/-- A state with the same outputs, CMD, DONE and phase. -/
theorem inv_of_eq (h : s.Inv P) (hmem : t.mem = s.mem := by rfl) (hoffs : t.offs = s.offs := by rfl)
    (hxpix : t.xpix = s.xpix := by rfl) (hxmsg : t.xmsgLen = s.xmsgLen := by rfl)
    (hxmeta : t.xmetaLen = s.xmetaLen := by rfl) (hphase : t.phase = s.phase := by rfl)
    (hcmd : t.cmd = s.cmd := by rfl) (hdone : t.done = s.done := by rfl) : t.Inv P where
  memory := hmem ▸ h.memory
  offs := hoffs ▸ h.offs
  counts := ⟨hxpix ▸ h.counts.xpix, hxmsg ▸ h.counts.xmsg, hxmeta ▸ h.counts.xmeta⟩
  phase := by
    unfold PhaseInv
    rw [hphase, hcmd, hdone]
    exact h.phase

theorem inv_resetOver (h : MemoryInv P m) (s : State) : (s.resetOver m).Inv P where
  memory := h
  offs := ⟨rfl, rfl⟩
  counts := ⟨Nat.zero_le _, Nat.zero_le _, Nat.zero_le _⟩
  phase w st hp := by cases hp

theorem inv_writeCtrl (hP : P.wf = true) (h : s.Inv P) (v : Word) : (writeCtrl P s v).Inv P := by
  unfold writeCtrl
  split
  · exact inv_resetOver (memoryInv_abortedMemory hP h.memory) s
  · exact inv_of_eq h

theorem inv_writeStatus (h : s.Inv P) (v : Word) : (writeStatus s v).Inv P where
  memory := h.memory
  offs := h.offs
  counts := ⟨h.counts.xpix, h.counts.xmsg, h.counts.xmeta⟩
  phase w st hp := by
    obtain ⟨hcmd, hdone⟩ := h.phase w st hp
    exact ⟨hcmd, by simp [writeStatus, hdone]⟩

theorem inv_issue (h : s.Inv P) (w : Word) : (s.issue w).Inv P where
  memory := h.memory
  offs := h.offs
  counts := ⟨h.counts.xpix, h.counts.xmsg, h.counts.xmeta⟩
  phase w' st hp := by cases hp; exact ⟨rfl, rfl⟩

/-- No register of the invariant can be written by the host but CMD, STATUS and CTRL. -/
theorem inv_storeReg (h : s.Inv P) (v : Word) (r : RegName) : (storeReg s v r).Inv P := by
  cases r <;> exact inv_of_eq h

theorem inv_hostRead (h : s.Inv P) (a n : Nat) : (hostRead P s a n).Inv P := by
  rw [hostRead_eq]
  exact inv_of_eq h

theorem inv_hostWrite (hP : P.wf = true) (h : s.Inv P) (a n : Nat) (v : Word) : (hostWrite P s a n v).Inv P := by
  rcases hostWrite_cases P s a n v with
    ⟨-, e⟩ | ⟨-, e⟩ | ⟨-, e⟩ | ⟨-, e⟩ | ⟨-, -, e⟩ | ⟨-, r, -, e⟩ | ⟨-, htarget, e⟩ <;> rw [e]
  · exact inv_of_eq h
  · exact inv_writeCtrl hP h v
  · exact inv_writeStatus h v
  · exact inv_of_eq h
  · exact inv_issue h v
  · exact inv_storeReg h v r
  · obtain ⟨-, -, r, -, hreg⟩ | ⟨-, -, -, hin, -⟩ := accessTarget_cases htarget
    · cases hreg
    · obtain ⟨b, hb⟩ := Access.inSomeBuffer_iff.1 hin
      exact { memory := memoryInv_writeList (b := b) h.memory (by rwa [littleBytes_length])
              offs := h.offs
              counts := ⟨h.counts.xpix, h.counts.xmsg, h.counts.xmeta⟩
              phase := h.phase }

theorem inv_hostOp (hP : P.wf = true) (h : s.Inv P) (op : HostOp) : (hostOp P s op).Inv P := by
  cases op with
  | read a n => exact inv_hostRead h a.toNat n
  | write a n v => exact inv_hostWrite hP h a.toNat n v
  | wait =>
    rw [hostOp]
    split
    · exact inv_of_eq (inv_hostRead h RegName.status.offset 8)
    · exact inv_hostRead h RegName.status.offset 8
  | powerOn => exact inv_resetOver memoryInv_nil s

theorem inv_hostStep (hP : P.wf = true) (h : s.Inv P) : (hostStep P s).Inv P := by
  unfold hostStep
  split
  · exact h
  · rename_i op rest _
    have hnext : State.Inv P { s with host := rest, latency := s.latency - 1 } := inv_of_eq h
    exact inv_of_eq (inv_hostOp hP hnext op)

end Sys2Proof.Proofs.Invariant

namespace Sys2Proof.Proofs

open Sys2Proof.Machine Sys2Proof.Laws

/-- Settles O58: at reset nothing is listed, OFFS and the counts are 0, and nothing is in flight. -/
theorem resetHasInvariant : Obligations.ResetHasInvariant :=
  Invariant.inv_resetOver Invariant.memoryInv_nil State.reset

/-- Settles O59: a step is a command's outcome (`Invariant.inv_exec`), the completion of an illegal word, or a host
operation (`Invariant.inv_hostStep`), and each keeps the invariant. -/
theorem stepKeepsInvariant : Obligations.StepKeepsInvariant := by
  intro s t h hstep
  rcases step_cases s with ⟨w, st, i, -, -, -, e⟩ | ⟨w, st, x, -, -, -, e⟩ | ⟨-, e⟩ <;> rw [e] at hstep
  · exact Invariant.inv_exec h hstep
  · cases hstep
    exact Invariant.inv_complete (Invariant.outputInv_of_inv h) _ _
  · cases hstep
    exact Invariant.inv_hostStep Invariant.hw_wf h

end Sys2Proof.Proofs
end

section
/-! Proofs of the registers as the host sees them (10_state.md R21 to R32): the bits of a register's named fields, and
what a host write to one register does to the reads of all. -/

namespace Sys2Proof.Proofs.Registers

open Sys2Proof.Machine Sys2Proof.Claims Sys2Proof.Laws
open Config (Params)

variable {P : Params} {s : State}

/-! ## Fields as masks -/

/-- A field in the low n bits, read back with zeros above it. -/
theorem setWidth_extractLsb' (v : Word) {n : Nat} (h : n ≤ 64) :
    (v.extractLsb' 0 n).setWidth 64 = v &&& BitVec.ofNat 64 (2 ^ n - 1) := by
  have hpow : 2 ^ n ≤ 2 ^ 64 := Nat.pow_le_pow_right (by decide) h
  have hmask : (2 ^ n - 1) % 2 ^ 64 = 2 ^ n - 1 := Nat.mod_eq_of_lt (by omega)
  apply BitVec.eq_of_toNat_eq
  rw [BitVec.toNat_setWidth_of_le h, BitVec.extractLsb'_toNat, Nat.shiftRight_zero, BitVec.toNat_and,
    BitVec.toNat_ofNat, hmask, Nat.and_two_pow_sub_one_eq_mod]

/-- ARG's three fields in place are the bits of its mask (R27). -/
theorem argFields_eq (v : Word) :
    (0 : BitVec 47) ++ bit (v.getLsbD 16) ++ (0 : BitVec 6) ++ v.extractLsb' 8 2 ++ (0 : BitVec 4) ++ v.extractLsb' 0 4
      = v &&& 0x1030F := by
  apply BitVec.eq_of_getLsbD_eq
  intro i hi
  simp only [BitVec.getLsbD_append, BitVec.getLsbD_and, BitVec.getLsbD_extractLsb', bit, BitVec.getLsbD_ofBool]
  interval_cases i <;> simp

/-! ## What a register write does -/

theorem writeReg_of_idle (P : Params) (h : s.phase = .idle) (v : Word) {r : RegName} (hctrl : r ≠ .ctrl)
    (hstatus : r ≠ .status) (hcmd : r ≠ .cmd) : writeReg P s v r = storeReg s v r := by
  cases r with
  | ctrl => exact absurd rfl hctrl
  | status => exact absurd rfl hstatus
  | cmd => exact absurd rfl hcmd
  | _ => exact if_neg (by simp [State.busy, h])

theorem storeReg_of_readOnly (s : State) (v : Word) {r : RegName} (h : readOnly r = true) : storeReg s v r = s := by
  cases r with
  | id | offs | xmsgLen | xmetaLen | xpix | seedOut => rfl
  | _ => cases h

theorem storeReg_mem (s : State) (v : Word) (r : RegName) : (storeReg s v r).mem = s.mem := by
  cases r <;> rfl

theorem storeReg_phase (s : State) (v : Word) (r : RegName) : (storeReg s v r).phase = s.phase := by
  cases r <;> rfl

theorem readReg_storeReg_same (s : State) (v : Word) {r : RegName} (hro : readOnly r = false) (hctrl : r ≠ .ctrl)
    (hstatus : r ≠ .status) (hcmd : r ≠ .cmd) : readReg (storeReg s v r) r = v &&& fieldMask r := by
  have hall : v &&& 0xFFFFFFFFFFFFFFFF = v := BitVec.and_allOnes
  cases r with
  | ctrl => exact absurd rfl hctrl
  | status => exact absurd rfl hstatus
  | cmd => exact absurd rfl hcmd
  | id | offs | xmsgLen | xmetaLen | xpix | seedOut => cases hro
  | arg => exact argFields_eq v
  | npix | msgLen | metaLen => exact setWidth_extractLsb' v (n := 32) (by decide)
  | chVal | pixR | pixG | pixB => exact setWidth_extractLsb' v (n := 10) (by decide)
  | chPat => exact setWidth_extractLsb' v (n := 24) (by decide)
  | pixPatHi => exact setWidth_extractLsb' v (n := 8) (by decide)
  | pixPatLo => exact hall.symm
  | pin i | seed i =>
    simp only [readReg, storeReg, bankGet_bankSet_same]
    exact setWidth_extractLsb' v (n := 8) (by decide)
  | skey i | vec i | mat r c => simp only [readReg, storeReg, bankGet_bankSet_same, fieldMask, hall]

theorem flatIndex_inj {r c r' c' : Fin 4} (h : flatIndex r c = flatIndex r' c') : r = r' ∧ c = c' :=
  ⟨by simpa using congrArg rowOf h, by simpa using congrArg colOf h⟩

/-- A bank write shows in its own element alone; any other register is a field of its own. -/
theorem readReg_storeReg_ne (s : State) (v : Word) {r r' : RegName} (h : r' ≠ r) :
    readReg (storeReg s v r) r' = readReg s r' := by
  cases r with
  | pin i | seed i | skey i | vec i =>
    cases r' <;> first | rfl | skip
    rename_i j
    have hne : j ≠ i := fun e => h (e ▸ rfl)
    simp only [readReg, storeReg, bankGet_bankSet_ne _ _ hne]
  | mat r c =>
    cases r' <;> first | rfl | skip
    rename_i r' c'
    have hne : flatIndex r' c' ≠ flatIndex r c := fun e => by
      obtain ⟨rfl, rfl⟩ := flatIndex_inj e
      exact h rfl
    simp only [readReg, storeReg, bankGet_bankSet_ne _ _ hne]
  | _ => cases r' <;> first | rfl | exact absurd rfl h

/-! ## STATUS (R24) -/

theorem status_err (s : State) : s.status.extractLsb' 8 4 = errorNumber s.err := by
  have hcode : s.err.code = errorNumber s.err := by cases s.err <;> rfl
  apply BitVec.eq_of_getLsbD_eq
  intro i hi
  rw [← hcode]
  simp only [State.status, BitVec.getLsbD_append, BitVec.getLsbD_extractLsb']
  interval_cases i <;> simp

theorem status_reserved (s : State) : s.status &&& 0xFFFFFFFF3F00F0FC = 0 := by
  apply BitVec.eq_of_getLsbD_eq
  intro i hi
  simp only [State.status, BitVec.getLsbD_append, BitVec.getLsbD_and, bit, BitVec.getLsbD_ofBool]
  interval_cases i <;> simp

end Sys2Proof.Proofs.Registers

namespace Sys2Proof.Proofs

open Sys2Proof.Machine Sys2Proof.Claims Sys2Proof.Laws

/-- Settles O44: a register's own offset names it, and no other does. -/
theorem addressMapNamesEachRegister : Obligations.AddressMapNamesEachRegister := fun _ r =>
  ⟨Access.eq_offset_of_regAt, fun h => h ▸ regAt_offset r⟩

/-- Settles O46: the write stores the register's named fields, in which a read-only register has none of the host's. -/
theorem registerWriteReadsBack : Obligations.RegisterWriteReadsBack := by
  intro P s r v hp hctrl hstatus hcmd
  rw [hostOp_write_reg, Registers.writeReg_of_idle P hp v hctrl hstatus hcmd]
  refine ⟨Registers.storeReg_of_readOnly s v, fun hro => ⟨?_, ?_, ?_, ?_⟩⟩
  · exact Registers.readReg_storeReg_same s v hro hctrl hstatus hcmd
  · exact fun r' hne => Registers.readReg_storeReg_ne s v hne
  · exact Registers.storeReg_mem s v r
  · rw [Registers.storeReg_phase, hp]

/-- Settles O51: the two registers whose writes take effect at any time. -/
theorem ctrlAndStatusWrites : Obligations.CtrlAndStatusWrites := by
  intro P s v
  refine ⟨fun h => ?_, ?_⟩
  · rw [ControlRegs.hostOp_write_ctrl, ControlRegs.writeCtrl_of_no_reset P s h]
  · exact ControlRegs.hostOp_write_status P s v

/-- Settles O52: STATUS is the concatenation of its fields and of zeros in between. -/
theorem statusShowsItsFields : Obligations.StatusShowsItsFields := by
  intro s
  rw [← Sequencer.busy_iff]
  refine ⟨?_, ?_, Registers.status_err s, ?_, ?_, ?_, ?_, ?_, ?_, ?_, ?_, ?_, ?_, Registers.status_reserved s⟩
  all_goals
    simp only [readReg, State.status, ResultFlags.bits, bit, BitVec.getLsbD_append, BitVec.getLsbD_ofBool]
    simp

end Sys2Proof.Proofs
end

section
/-! Proofs of the host's accesses (20_memory.md R74 to R77, 70_reset_and_hazards.md R326, R327): what an admissible
access reaches, and which registers and bytes the command in flight could write. -/

namespace Sys2Proof.Proofs.HostAccess

open Sys2Proof.Machine Sys2Proof.Claims Sys2Proof.Laws
open Config (Params)

variable {P : Params} {s : State} {w : Word} {st : Bool}

/-! ## The command in flight -/

theorem inFlightInstr_eq_some_iff {i : Instr} :
    s.inFlightInstr = some i ↔ ∃ w st, s.phase = .busy w st ∧ decode w = .ok i := by
  cases hp : s.phase with
  | idle => simp [State.inFlightInstr, State.inFlight, hp]
  | busy w st => cases hd : decode w <;> simp [State.inFlightInstr, State.inFlight, hp, hd]

theorem inFlightInstr_of_idle (h : s.phase = .idle) : s.inFlightInstr = none := by
  simp [State.inFlightInstr, State.inFlight, h]

/-- The model's table of what a command writes is R38's. -/
theorem commandWritesReg_eq (i : Instr) (r : RegName) : commandWritesReg i r = tableWrites i r := by
  cases i <;> cases r <;> rfl

theorem inFlightWritesReg_eq_false {r : RegName}
    (h : ∀ w st i, s.phase = .busy w st → decode w = .ok i → tableWrites i r = false) :
    inFlightWritesReg s r = false := by
  unfold inFlightWritesReg
  split
  · rfl
  · rename_i i hi
    obtain ⟨w, st, hp, hd⟩ := inFlightInstr_eq_some_iff.1 hi
    rw [commandWritesReg_eq, h w st i hp hd]

/-- R322: EMBED could write the green and the blue byte of each pixel that it visits. -/
theorem pixel_of_embedCouldWrite {a : Nat} (h : embedCouldWrite P s a = true) :
    ∃ p, p < min s.npix.toNat (lm s) ∧ (a = greenAt p ∨ a = blueAt p) := by
  simp only [embedCouldWrite, Bool.and_eq_true, Bool.or_eq_true, Access.holds_iff, decide_eq_true_eq] at h
  obtain ⟨⟨⟨hbase, -⟩, hp⟩, hbyte⟩ := h
  exact ⟨(a - pixBase) / 4, hp, by simp only [greenAt, blueAt, Buffer.base] at hbase ⊢; omega⟩

/-- R322: EXTRACT could write as many whole bytes of each output buffer as the pixels hold bits for. -/
theorem byte_of_extractCouldWrite {a : Nat} (h : extractCouldWrite P s a = true) :
    ∃ k, k < s.npix.toNat / 8 ∧ (a = msgBase + k ∨ a = metaBase + k) := by
  simp only [extractCouldWrite, Bool.and_eq_true, Bool.or_eq_true, Access.holds_iff, decide_eq_true_eq] at h
  rcases h with ⟨⟨hbase, -⟩, hk⟩ | ⟨⟨hbase, -⟩, hk⟩
  · exact ⟨a - msgBase, hk, .inl (Nat.add_sub_of_le hbase).symm⟩
  · exact ⟨a - metaBase, hk, .inr (Nat.add_sub_of_le hbase).symm⟩

theorem inFlightWritesByte_eq_false {a : Nat}
    (hem : ∀ w st, s.phase = .busy w st → decode w = .ok .embed →
      ∀ p, p < min s.npix.toNat (lm s) → a ≠ greenAt p ∧ a ≠ blueAt p)
    (hex : ∀ w st, s.phase = .busy w st → decode w = .ok .extract →
      ∀ k, k < s.npix.toNat / 8 → a ≠ msgBase + k ∧ a ≠ metaBase + k) :
    inFlightWritesByte P s a = false := by
  unfold inFlightWritesByte
  split
  · rename_i hi
    obtain ⟨w, st, hp, hd⟩ := inFlightInstr_eq_some_iff.1 hi
    rw [Bool.eq_false_iff]
    intro hcould
    obtain ⟨p, hlt, hpix⟩ := pixel_of_embedCouldWrite hcould
    obtain ⟨hgreen, hblue⟩ := hem w st hp hd p hlt
    exact hpix.elim hgreen hblue
  · rename_i hi
    obtain ⟨w, st, hp, hd⟩ := inFlightInstr_eq_some_iff.1 hi
    rw [Bool.eq_false_iff]
    intro hcould
    obtain ⟨k, hlt, hbyte⟩ := byte_of_extractCouldWrite hcould
    obtain ⟨hmsg, hmeta⟩ := hex w st hp hd k hlt
    exact hbyte.elim hmsg hmeta
  · rfl

/-! ## Reads -/

theorem hostOp_read_of_target {a : BitVec 22} {n : Nat} {t : Target} (h : accessTarget P a.toNat n = some t) :
    hostOp P s (.read a n) = { s with rdata := readValue P s (some t) } := by
  simp only [hostOp, hostRead, h]

/-- Byte k of what a buffer read returns is the host's byte at a + k (R74). -/
theorem extractLsb'_readValue_bytes (P : Params) (s : State) (a : Nat) {n k : Nat} (hk : k < n) (hk8 : k < 8) :
    (readValue P s (some (.bytes a n))).extractLsb' (8 * k) 8 = hostByte P s (a + k) := by
  refine ofLittleBytes_get _ k _ hk8 ?_
  simp [hk]

theorem readValue_byte (P : Params) (s : State) (a : Nat) :
    readValue P s (some (.bytes a 1)) = (hostByte P s a).setWidth 64 := by
  simp [readValue, ofLittleBytes]

theorem hostByte_of_read? {a : Nat} {v : Byte} (hfree : inFlightWritesByte P s a = false)
    (hv : Memory.read? s.mem a = some v) : hostByte P s a = v := by
  simp [hostByte, hfree, hv]

/-! ## Writes -/

/-- An access that reaches a register is at that register's offset (R72). -/
theorem eq_offset_of_target {a n : Nat} {r : RegName} (h : accessTarget P a n = some (.reg r)) : a = r.offset := by
  rcases accessTarget_cases h with ⟨-, -, r', hr, he⟩ | ⟨-, -, -, -, he⟩
  · cases he
    exact Access.eq_offset_of_regAt hr
  · cases he

/-- R326: while Busy, a write that reaches anything but CTRL and STATUS only sets BUSYWR. -/
theorem hostWrite_of_busy (h : s.busy = true) {a n : Nat} {t : Target} (ht : accessTarget P a n = some t)
    (hctrl : a ≠ 0x008) (hstatus : a ≠ 0x010) (v : Word) : hostWrite P s a n v = s.setBusyWr := by
  rcases hostWrite_cases P s a n v with ⟨hn, -⟩ | ⟨hr, -⟩ | ⟨hr, -⟩ | ⟨-, e⟩ | ⟨hb, -⟩ | ⟨hb, -⟩ | ⟨hb, -⟩
  · rw [ht] at hn
    cases hn
  · exact absurd (eq_offset_of_target hr) hctrl
  · exact absurd (eq_offset_of_target hr) hstatus
  · exact e
  all_goals rw [h] at hb; cases hb

theorem hostWrite_bytes_of_idle (h : s.busy = false) {a n : Nat} (ht : accessTarget P a n = some (.bytes a n))
    (v : Word) : hostWrite P s a n v = { s with mem := Memory.writeList s.mem a (littleBytes n v) } := by
  simp [hostWrite, ht, h]

theorem read?_write_littleBytes (m : Memory) (a : Nat) {n k : Nat} (v : Word) (hk : k < n) :
    Memory.read? (Memory.writeList m a (littleBytes n v)) (a + k) = some (v.extractLsb' (8 * k) 8) := by
  rw [read?_writeList_inside _ _ _ _ (by rwa [littleBytes_length])]
  simp [littleBytes]

/-- The window ends after the last buffer, so bytes of a buffer have offsets of 22 bits (R70). -/
theorem lt_window_of_inside (hP : P.wf = true) {b : Buffer} {a n k : Nat} (h : Inside P b a n) (hk : k < n) :
    a + k < 2 ^ 22 := by
  have hsize := Access.size_le hP b
  obtain ⟨-, hend⟩ := h
  cases b <;> simp only [Buffer.base, pixBase, msgBase, metaBase] at hend <;> omega

end Sys2Proof.Proofs.HostAccess

namespace Sys2Proof.Proofs

open Sys2Proof.Machine Sys2Proof.Claims Sys2Proof.Laws

/-- Settles O47: the write is a run of the value's bytes, and the k-th byte of an n-byte read is the byte at a + k. -/
theorem bufferAccessIsLittleEndian : Obligations.BufferAccessIsLittleEndian := by
  intro P s b a n v hP hp hn hal hin
  have ht : accessTarget P a.toNat n = some (.bytes a.toNat n) := Access.accessTarget_bytes hn hal hin
  constructor
  · refine ⟨_, HostAccess.hostWrite_bytes_of_idle (Sequencer.busy_eq_false_of_phase hp) ht v, ?_, ?_⟩
    · exact fun k hk => HostAccess.read?_write_littleBytes s.mem a.toNat v hk
    · exact fun x hx => read?_writeList_outside s.mem _ (by rwa [littleBytes_length])
  · intro k hk
    have hat : (BitVec.ofNat 22 (a.toNat + k)).toNat = a.toNat + k :=
      (BitVec.toNat_ofNat _ _).trans (Nat.mod_eq_of_lt (HostAccess.lt_window_of_inside hP hin hk))
    obtain ⟨hlo, hhi⟩ := hin
    have ht1 : accessTarget P (BitVec.ofNat 22 (a.toNat + k)).toNat 1 = some (.bytes (a.toNat + k) 1) := by
      rw [hat]
      exact Access.accessTarget_bytes (.inl rfl) (Nat.mod_one _) (b := b) ⟨by omega, by omega⟩
    rw [HostAccess.hostOp_read_of_target ht, HostAccess.hostOp_read_of_target ht1]
    dsimp only
    rw [HostAccess.extractLsb'_readValue_bytes P s _ hk (by omega)]
    exact (HostAccess.extractLsb'_readValue_bytes P s (a.toNat + k) one_pos (by decide)).symm

/-- Settles O48: an admissible access reaches something (R73), and while Busy a write of it only sets BUSYWR. -/
theorem busyWriteIsDropped : Obligations.BusyWriteIsDropped := by
  intro P s w st a n v _ hp hadm hctrl hstatus
  obtain ⟨t, ht⟩ := Access.accessTarget_isSome_of_not_inadmissible hadm
  exact HostAccess.hostWrite_of_busy (Sequencer.busy_of_phase hp) ht hctrl hstatus v

/-- Settles O49: a read of what an access reaches sets the read data return alone, and the value is the register's
where the command in flight does not write it. -/
theorem hostReadHasNoSideEffect : Obligations.HostReadHasNoSideEffect := by
  intro P s _
  refine ⟨fun a n hadm => ?_, fun r hr => ?_⟩
  · obtain ⟨t, ht⟩ := Access.accessTarget_isSome_of_not_inadmissible hadm
    exact ⟨_, HostAccess.hostOp_read_of_target ht⟩
  · rw [hostOp_read_reg, readValue, HostAccess.inFlightWritesReg_eq_false hr]
    rfl

/-- Settles O50: a 1-byte read returns the byte, which the command in flight does not make unspecified. -/
theorem writtenByteReadsBack : Obligations.WrittenByteReadsBack := by
  intro P s b a v _ hin hv hem hex
  have ht : accessTarget P a.toNat 1 = some (.bytes a.toNat 1) :=
    Access.accessTarget_bytes (.inl rfl) (Nat.mod_one _) hin
  rw [HostAccess.hostOp_read_of_target ht, HostAccess.readValue_byte,
    HostAccess.hostByte_of_read? (HostAccess.inFlightWritesByte_eq_false hem hex) hv]

end Sys2Proof.Proofs
end

section
/-! Proofs of reset, abort and the interrupt output (44_control.md R277, 60_exceptions.md R296, 70_reset_and_hazards.md
R320 to R322): what a reset leaves in every register, and what an abort leaves in the buffers. -/

namespace Sys2Proof.Proofs.Reset

open Sys2Proof.Machine Sys2Proof.Claims Sys2Proof.Laws
open Config (Params)

variable {P : Params} {s : State}

/-! ## Registers (R37) -/

theorem readReg_reset (r : RegName) : readReg State.reset r = resetValue r := by
  cases r with
  | pin i | seed i | skey i | seedOut i | vec i | mat r c => simp [readReg, State.reset, resetValue]
  | _ => decide

/-- The registers after a reset are those of the reset state: buffers and the model's own fields do not show in them. -/
theorem readReg_resetOver (s : State) (m : Memory) (r : RegName) : readReg (s.resetOver m) r = resetValue r := by
  have hreset : readReg (s.resetOver m) r = readReg State.reset r := by cases r <;> rfl
  rw [hreset, readReg_reset]

theorem resetOver_irq (s : State) (m : Memory) : (s.resetOver m).irq = false := rfl

theorem hostOp_srst (P : Params) (s : State) {v : Word} (h : v.getLsbD 1 = true) :
    hostOp P s (.write 0x008 8 v) = s.resetOver (abortedMemory P s) := by
  rw [ControlRegs.hostOp_write_ctrl, ControlRegs.writeCtrl_of_reset P s h]
  rfl

/-! ## Buffers (R322) -/

theorem abortedMemory_of_embed (h : s.inFlightInstr = some .embed) :
    abortedMemory P s
      = Memory.select (fun a => embedCouldWrite P s a && Config.abortTakesNew s.draws a) s.mem (embedCmd P s).mem := by
  simp only [abortedMemory, h]

theorem abortedMemory_of_extract (h : s.inFlightInstr = some .extract) :
    abortedMemory P s
      = Memory.select (fun a => extractCouldWrite P s a && Config.abortTakesNew s.draws a) s.mem
          (extractCmd P s).mem := by
  simp only [abortedMemory, h]

theorem abortedMemory_of_other (hem : s.inFlightInstr ≠ some .embed) (hex : s.inFlightInstr ≠ some .extract) :
    abortedMemory P s = s.mem := by
  unfold abortedMemory
  split
  · exact absurd ‹_› hem
  · exact absurd ‹_› hex
  · rfl

/-- R322 for one byte: its old value, or EMBED's or EXTRACT's in a byte that the command could have written. -/
theorem read?_abortedMemory (hwf : Memory.wf s.mem = true) (a : Nat) :
    Memory.read? (abortedMemory P s) a = Memory.read? s.mem a
      ∨ (s.inFlightInstr = some .embed ∧ embedCouldWrite P s a = true
          ∧ Memory.read? (abortedMemory P s) a = Memory.read? (embedCmd P s).mem a)
      ∨ (s.inFlightInstr = some .extract ∧ extractCouldWrite P s a = true
          ∧ Memory.read? (abortedMemory P s) a = Memory.read? (extractCmd P s).mem a) := by
  by_cases hem : s.inFlightInstr = some .embed
  · rw [abortedMemory_of_embed hem, read?_select _ a (embedCmd_wf P hwf)]
    split_ifs with hnew
    · exact .inr (.inl ⟨hem, (Bool.and_eq_true_iff.1 hnew).1, rfl⟩)
    · exact .inl rfl
  · by_cases hex : s.inFlightInstr = some .extract
    · rw [abortedMemory_of_extract hex, read?_select _ a (extractCmd_wf P hwf)]
      split_ifs with hnew
      · exact .inr (.inr ⟨hex, (Bool.and_eq_true_iff.1 hnew).1, rfl⟩)
      · exact .inl rfl
    · exact .inl (by rw [abortedMemory_of_other hem hex])

theorem abortedMemory_of_idle (h : s.phase = .idle) : abortedMemory P s = s.mem := by
  have hnone := HostAccess.inFlightInstr_of_idle h
  exact abortedMemory_of_other (by simp [hnone]) (by simp [hnone])

/-! ## The interrupt output (R296) -/

theorem complete_irq (u : State) (e : ErrorCode) (f : ResultFlags) : (u.complete e f).irq = u.ie := by
  simp [State.irq]

end Sys2Proof.Proofs.Reset

namespace Sys2Proof.Proofs

open Sys2Proof.Machine Sys2Proof.Claims Sys2Proof.Laws

/-- Settles O53: SRST is a reset over the buffers that R322 allows, which while Idle are the buffers as they were. -/
theorem softResetClearsRegisters : Obligations.SoftResetClearsRegisters := by
  intro P s v h
  rw [Reset.hostOp_srst P s h]
  exact ⟨Reset.readReg_resetOver s _, rfl, Reset.resetOver_irq s _, Reset.abortedMemory_of_idle⟩

/-- Settles O54: the choice that the abort makes for each byte (`Reset.read?_abortedMemory`), with the places that the
command could have written. -/
theorem abortedBytesAreOldOrNew : Obligations.AbortedBytesAreOldOrNew := by
  intro s w st v hwf hp hv a
  have hdecode {i : Instr} (hi : s.inFlightInstr = some i) : decode w = .ok i := by
    obtain ⟨w', st', hp', hd⟩ := HostAccess.inFlightInstr_eq_some_iff.1 hi
    rw [hp] at hp'
    cases hp'
    exact hd
  rw [Reset.hostOp_srst _ _ hv]
  rcases Reset.read?_abortedMemory (P := Config.hw) hwf a with hold | ⟨hi, hcould, hnew⟩ | ⟨hi, hcould, hnew⟩
  · exact .inl hold
  · exact .inr ⟨.embed, _, hdecode hi, rfl, hnew, .inl ⟨rfl, HostAccess.pixel_of_embedCouldWrite hcould⟩⟩
  · exact .inr ⟨.extract, _, hdecode hi, rfl, hnew, .inr ⟨rfl, HostAccess.byte_of_extractCouldWrite hcould⟩⟩

/-- Settles O55: the reset state and power-on are resets over empty buffers. -/
theorem powerOnResetState : Obligations.PowerOnResetState := by
  intro s t ht
  obtain ⟨u, rfl⟩ : ∃ u : State, t = u.resetOver [] := by
    rcases ht with rfl | rfl
    · exact ⟨State.reset, rfl⟩
    · exact ⟨s, rfl⟩
  exact ⟨Reset.readReg_resetOver u [], rfl, Reset.resetOver_irq u [], read?_nil⟩

/-- Settles O56: a completion sets DONE and keeps IE (`Reset.complete_irq`); the acknowledge, an issue and a reset
clear DONE, and a write of 0 to CTRL clears IE alone. -/
theorem interruptOutput : Obligations.InterruptOutput := by
  refine ⟨fun s => rfl, fun i s t h => ?_, fun s => Reset.complete_irq s _ _, fun s w st hp ht => ?_, fun P s => ?_,
    fun P s w hp => ?_, fun P s => ?_, fun P s => ⟨?_, Reset.resetOver_irq s []⟩⟩
  · obtain ⟨u, e, f, hexec, -, -, hie, -⟩ := exec_completes i s
    obtain rfl : u.complete e f = t := by simpa [hexec] using h
    rw [Reset.complete_irq, hie]
  · obtain ⟨u, e, f, hstep, hie⟩ := Sequencer.step_completes hp ht
    exact ⟨_, hstep, rfl, by rw [Reset.complete_irq, hie]⟩
  · rw [ControlRegs.hostOp_write_status]
    simp [State.irq, writeStatus]
  · rw [ControlRegs.hostOp_write_cmd P (Sequencer.busy_eq_false_of_phase hp)]
    simp [State.irq]
  · rw [ControlRegs.hostOp_write_ctrl, ControlRegs.writeCtrl_of_no_reset P s (by decide)]
    exact ⟨rfl, rfl⟩
  · rw [Reset.hostOp_srst P s (by decide)]
    exact Reset.resetOver_irq s _

end Sys2Proof.Proofs
end

section
/-! Proofs of the Matrix Codec's and the Scrambler's laws (40_matrix_scrambler.md R133, R137, R142, R143): a scramble
is two exchanges of the index, so it is the table's permutation on rows and columns alike. -/

namespace Sys2Proof.Proofs.Scrambler

open Sys2Proof.Machine Sys2Proof.Claims Sys2Proof.Laws

variable {α : Type}

/-! ## The permutation of R137's table -/

/-- The table's permutation is the exchange of the second round after that of the first. -/
theorem exchange_exchange_eq (mode : Mode) (k r : Fin 4) :
    exchange 0 (partner k) (exchange 0 (partner (advance k mode)) r) = scramblePi mode k r := by
  revert k r
  cases mode <;> decide

theorem scramblePi_injective (mode : Mode) (k : Fin 4) : Function.Injective (scramblePi mode k) := by
  intro r c h
  have hback := congrArg (fun j => exchange 0 (partner (advance k mode)) (exchange 0 (partner k) j)) h
  simpa only [← exchange_exchange_eq, exchange_exchange] using hback

theorem scramble_apply (M : Mat α) (k : Fin 4) (mode : Mode) (r c : Fin 4) :
    scramble M k mode r c = M (scramblePi mode k r) (scramblePi mode k c) := by
  rw [scramble, scrambleRound_apply, scrambleRound_apply, exchange_exchange_eq, exchange_exchange_eq]

theorem unscramble_apply_scramblePi (M : Mat α) (k : Fin 4) (mode : Mode) (r c : Fin 4) :
    unscramble M k mode (scramblePi mode k r) (scramblePi mode k c) = M r c := by
  rw [unscramble, unscrambleRound_apply, unscrambleRound_apply, ← exchange_exchange_eq, ← exchange_exchange_eq]
  simp only [exchange_exchange]

theorem unscrambleRound_scrambleRound (M : Mat α) (m : Fin 4) : unscrambleRound (scrambleRound M m) m = M := by
  funext r c
  rw [unscrambleRound_apply, scrambleRound_apply, exchange_exchange, exchange_exchange]

theorem unscramble_scramble (M : Mat α) (k : Fin 4) (mode : Mode) : unscramble (scramble M k mode) k mode = M := by
  rw [unscramble, scramble, unscrambleRound_scrambleRound, unscrambleRound_scrambleRound]

/-- Rows and columns permuted alike: the determinant stays, sign and all. -/
theorem det_scramble {R : Type} [CommRing R] (M : Mat R) (k : Fin 4) (mode : Mode) :
    (Matrix.of (scramble M k mode)).det = (Matrix.of M).det := by
  have hbij : Function.Bijective (scramblePi mode k) := Finite.injective_iff_bijective.1 (scramblePi_injective mode k)
  have hsub : Matrix.of (scramble M k mode)
      = (Matrix.of M).submatrix (Equiv.ofBijective _ hbij) (Equiv.ofBijective _ hbij) := by
    ext r c
    exact scramble_apply M k mode r c
  rw [hsub, Matrix.det_submatrix_equiv_self]

/-! ## The commands (R142, R143) -/

theorem exec_scramble (s : State) :
    exec .scramble s
      = .next ({ s with mat := matrixBank (scramble (bankMatrix s.mat) s.argMix s.argMode) }.complete .ok {}) := rfl

theorem exec_unscramble (s : State) :
    exec .unscramble s
      = .next ({ s with mat := matrixBank (unscramble (bankMatrix s.mat) s.argMix s.argMode) }.complete .ok {}) := rfl

/-- The permutation of ARG is that of the fields as the commands read them (30_encoding.md R102). -/
theorem argPi_eq (s : State) : argPi s = scramblePi s.argMode s.argMix := rfl

/-! ## The flat sequence (R131, R133) -/

theorem toSequence_apply (M : Mat ℚ) (o : Int) (i : Fin 16) :
    toSequence M o i = roundEven (M (rowOf (idx16 (i.val - o))) (colOf (idx16 (i.val - o)))) := by
  rw [toSequence, readBack_eq, neg_sub, workingList]

theorem toSequence_toRat (A : Mat ℤ) (o : Int) (i : Fin 16) :
    toSequence (toRat A) o i = A (rowOf (idx16 (i.val - o))) (colOf (idx16 (i.val - o))) := by
  rw [toSequence_apply, toRat, roundEven_intCast]

theorem idx16_coe (i : Fin 16) : idx16 i.val = i := by
  ext
  simp only [idx16]
  omega

/-- R130's index of the element that R131 reads back as the i-th. -/
theorem idx16_toMatrix (o : Int) (i : Fin 16) :
    idx16 (o + 4 * (rowOf (idx16 (i.val - o))).val + (colOf (idx16 (i.val - o))).val) = i := by
  refine Eq.trans (idx16_congr ?_) (idx16_coe i)
  simp only [rowOf, colOf, idx16]
  omega

theorem toSequence_toMatrix (q : Fin 16 → ℤ) (o : Int) : toSequence (toRat (toMatrix q o)) o = q := by
  funext i
  rw [toSequence_toRat, toMatrix, idx16_toMatrix]

theorem toSequence_zero (M : Mat ℚ) (r c : Fin 4) : toSequence M 0 (flatIndex r c) = roundEven (M r c) := by
  rw [toSequence_apply, sub_zero, idx16_coe, rowOf_flatIndex, colOf_flatIndex]

/-- R133 at an offset that is a natural number: where the element of row r, column c is emitted. -/
theorem toSequence_natCast (M : Mat ℚ) (o : Nat) (r c : Fin 4) :
    toSequence M (o : Int) (Fin.ofNat 16 (o + 4 * r.val + c.val)) = roundEven (M r c) := by
  have hidx : idx16 ((Fin.ofNat 16 (o + 4 * r.val + c.val)).val - (o : Int)) = flatIndex r c := by
    ext
    simp only [idx16, flatIndex, Fin.ofNat]
    omega
  rw [toSequence_apply, hidx, rowOf_flatIndex, colOf_flatIndex]

end Sys2Proof.Proofs.Scrambler

namespace Sys2Proof.Proofs

open Sys2Proof.Machine Sys2Proof.Laws

/-- Settles O18: each element is read by `Scrambler.scramble_apply`. -/
theorem scramblePermutesMat : Obligations.ScramblePermutesMat := by
  intro s
  refine ⟨_, Scrambler.exec_scramble s, fun r c => ?_⟩
  rw [bankGet_matrixBank, Scrambler.scramble_apply, Scrambler.argPi_eq]
  rfl

/-- Settles O19: each element is found again by `Scrambler.unscramble_apply_scramblePi`. -/
theorem unscramblePermutesBack : Obligations.UnscramblePermutesBack := by
  intro s
  refine ⟨_, Scrambler.exec_unscramble s, fun r c => ?_⟩
  rw [bankGet_matrixBank, Scrambler.argPi_eq, Scrambler.unscramble_apply_scramblePi]
  rfl

/-- Settles O20: the closed form, in which the offset of `toMatrix` cancels. -/
theorem toSequenceUndoesToMatrix : Obligations.ToSequenceUndoesToMatrix :=
  ⟨Scrambler.toSequence_apply, Scrambler.toSequence_toMatrix, Scrambler.toSequence_zero⟩

/-- Settles O21: the rounds undo each other, and both dimensions take the same permutation, so the determinant keeps
even its sign. -/
theorem unscrambleUndoesScramble : Obligations.UnscrambleUndoesScramble :=
  ⟨fun _ M k mode => ⟨Scrambler.unscramble_scramble M k mode, Scrambler.scramble_apply M k mode⟩,
    fun M k mode => .inl (Scrambler.det_scramble M k mode)⟩

end Sys2Proof.Proofs
end

section
/-! Proofs of MASK and UNMASK (41_key_masking.md R163 to R173): the matrices of the model are the spec's, the exact
product fits its register, and the exact inverse undoes it. -/

namespace Sys2Proof.Proofs.StorageKey

open Sys2Proof.Machine Sys2Proof.Claims Sys2Proof.Laws
open Config (Params)

variable {P : Params}

/-! ## The pin sum (R160) -/

theorem pinTotal_le (pin : Bank Byte) : pinTotal pin ≤ 4080 := by
  calc pinTotal pin ≤ ∑ _i : Fin 16, 255 := Finset.sum_le_sum fun i _ => by have := (bankGet pin i).isLt; omega
    _ = 4080 := by simp

/-! ## The matrices (R163, R165, R166) -/

theorem of_tableMatrix (pin : Bank Byte) : Matrix.of (tableMatrix Config.hw pin) = matC pin := by
  ext r c
  simp only [tableMatrix, matC, Matrix.of_apply, Scrambler.scramble_apply, MatrixCodec.toMatrix_natCast,
    KeyMasking.mixTable_eq, tableOffset, KeyMasking.ofs_eq, oT, Config.tableSeq]

theorem of_seedMatrix (pin seed : Bank Byte) : Matrix.of (seedMatrix Config.hw pin seed) = matK pin seed := by
  ext r c
  simp only [seedMatrix, matK, Matrix.of_apply, Scrambler.scramble_apply, MatrixCodec.toMatrix_natCast,
    KeyMasking.mixSeed_eq, keySeedOffset, KeyMasking.ofs_eq, oK, unsignedSeq]

theorem of_productMatrix (pin : Bank Byte) : Matrix.of (productMatrix Config.hw pin) = matC pin * matP pin := by
  rw [productMatrix, matMul_eq, of_tableMatrix, KeyMasking.of_pinMatrix]

/-- R7 item 3: the table is admitted only where none of its matrices is singular, and scrambling keeps that. -/
theorem det4_tableMatrix_ne_zero (hP : P.wf = true) (pin : Bank Byte) : det4 (tableMatrix P pin) ≠ 0 := by
  have hinv : Config.tableInvertible P = true := by
    simp only [Params.wf, Bool.and_eq_true] at hP
    obtain ⟨⟨⟨-, hinv⟩, -⟩, -⟩ := hP
    exact hinv
  have hoff : tableOffset P pin < 16 := Nat.mod_lt _ (by decide)
  have hdet := List.all_eq_true.1 hinv _ (List.mem_range.2 hoff)
  rw [det4_eq, tableMatrix, Scrambler.det_scramble, ← det4_eq]
  exact of_decide_eq_true hdet

/-- R172: det(Pr) = det(C') · det(P), and det(C') is not 0. -/
theorem det4_productMatrix_eq_zero_iff (hP : P.wf = true) (pin : Bank Byte) :
    det4 (productMatrix P pin) = 0 ↔ (matP pin).det = 0 := by
  rw [productMatrix, det4_matMul, mul_eq_zero, or_iff_right (det4_tableMatrix_ne_zero hP pin), det4_eq,
    KeyMasking.of_pinMatrix]

/-! ## The StorageKey and its bound (R166) -/

theorem storageKey_apply (P : Params) (pin seed : Bank Byte) (i : Fin 16) :
    storageKey P pin seed i = matMul (productMatrix P pin) (seedMatrix P pin seed) (rowOf i) (colOf i) := by
  rw [storageKey, Scrambler.toSequence_toRat, sub_zero, Scrambler.idx16_coe]

/-- A product of non-negative matrices is non-negative, and four terms bound its elements. -/
theorem matMul_bounds {A B : Mat ℤ} {a b : ℤ} (hA : ∀ r c, 0 ≤ A r c ∧ A r c ≤ a) (hB : ∀ r c, 0 ≤ B r c ∧ B r c ≤ b)
    (r c : Fin 4) : 0 ≤ matMul A B r c ∧ matMul A B r c ≤ 4 * (a * b) := by
  have hterm (l : Fin 4) : 0 ≤ A r l * B l c ∧ A r l * B l c ≤ a * b := by
    obtain ⟨hA0, hAa⟩ := hA r l
    obtain ⟨hB0, hBb⟩ := hB l c
    exact ⟨mul_nonneg hA0 hB0, mul_le_mul hAa hBb hB0 (hA0.trans hAa)⟩
  have h0 := hterm 0
  have h1 := hterm 1
  have h2 := hterm 2
  have h3 := hterm 3
  rw [matMul]
  constructor <;> linarith

theorem unsignedSeq_bounds (b : Bank Byte) (i : Fin 16) : 0 ≤ unsignedSeq b i ∧ unsignedSeq b i ≤ 255 := by
  have := (bankGet b i).isLt
  simp only [unsignedSeq]
  omega

/-- R166: sixteen products of a table entry, a pin code and a seed byte. -/
theorem storageKey_bounds (P : Params) (pin seed : Bank Byte) (i : Fin 16) {top : Nat}
    (htop : ∀ k, bankGet P.constTable k ≤ top) :
    0 ≤ storageKey P pin seed i ∧ storageKey P pin seed i ≤ 1040400 * top := by
  have hC (r c : Fin 4) : 0 ≤ tableMatrix P pin r c ∧ tableMatrix P pin r c ≤ (top : ℤ) := by
    rw [tableMatrix, Scrambler.scramble_apply]
    exact ⟨Int.natCast_nonneg _, Int.ofNat_le.2 (htop _)⟩
  have hP (r c : Fin 4) : 0 ≤ pinMatrix pin r c ∧ pinMatrix pin r c ≤ 255 := unsignedSeq_bounds pin _
  have hK (r c : Fin 4) : 0 ≤ seedMatrix P pin seed r c ∧ seedMatrix P pin seed r c ≤ 255 := by
    rw [seedMatrix, Scrambler.scramble_apply]
    exact unsignedSeq_bounds seed _
  rw [storageKey_apply]
  obtain ⟨hlo, hhi⟩ := matMul_bounds (matMul_bounds hC hP) hK (rowOf i) (colOf i)
  exact ⟨hlo, by rw [productMatrix]; linarith⟩

theorem constTable_le (hP : P.wf = true) (k : Fin 16) : bankGet P.constTable k ≤ Config.tLimit := by
  have hrange : Config.tableInRange P = true := by
    simp only [Params.wf, Bool.and_eq_true] at hP
    obtain ⟨⟨⟨hrange, -⟩, -⟩, -⟩ := hP
    exact hrange
  have hmem : bankGet P.constTable k ∈ bankList P.constTable :=
    List.mem_ofFn.2 ⟨k, rfl⟩
  have hentry := List.all_eq_true.1 hrange _ hmem
  simp only [Bool.and_eq_true, decide_eq_true_eq] at hentry
  exact hentry.2

/-- R7 item 2 is chosen so that the StorageKey fits 64 bits. -/
theorem storageKey_lt (hP : P.wf = true) (pin seed : Bank Byte) (i : Fin 16) : storageKey P pin seed i < 2 ^ 64 := by
  have h := (storageKey_bounds P pin seed i (constTable_le hP)).2
  refine h.trans_lt ?_
  decide

/-- No element of SKEY is truncated. -/
theorem toNat_truncBank_storageKey (hP : P.wf = true) (pin seed : Bank Byte) (i : Fin 16) :
    ((bankGet (truncBank (storageKey P pin seed)) i).toNat : ℤ) = storageKey P pin seed i := by
  have hlo := (storageKey_bounds P pin seed i (constTable_le hP)).1
  have hhi := storageKey_lt hP pin seed i
  rw [truncBank, bankGet_bankOf, BitVec.toNat_ofInt]
  omega

/-- The exact sum of products (R166). -/
theorem storageKey_eq_sum (pin seed : Bank Byte) (i j : Fin 4) :
    storageKey Config.hw pin seed (flatIndex i j)
      = ∑ l : Fin 4, ∑ m : Fin 4, matC pin i l * matP pin l m * matK pin seed m j := by
  have hprod : storageKey Config.hw pin seed (flatIndex i j) = (matC pin * (matP pin * matK pin seed)) i j := by
    rw [storageKey_apply, rowOf_flatIndex, colOf_flatIndex, ← Matrix.mul_assoc, ← of_productMatrix, ← of_seedMatrix,
      ← matMul_eq, Matrix.of_apply]
  simp only [hprod, Matrix.mul_apply, Finset.mul_sum, mul_assoc]

/-! ## MASK (R167) -/

variable {s : State}

theorem exec_mask_of_nonsingular (h : (matP s.pin).det ≠ 0) :
    exec .mask s
      = .next ({ s with
          offs := offsetsOf Config.hw s.pin
          skey := truncBank (storageKey Config.hw s.pin s.seed) }.complete .ok {}) :=
  congrArg _ (if_neg fun hs => h ((KeyMasking.pinSingular_iff s.pin).1 hs))

theorem exec_mask_of_singular (h : (matP s.pin).det = 0) :
    exec .mask s = .next ({ s with offs := offsetsOf Config.hw s.pin }.complete .notInvertible { pinsing := true }) :=
  congrArg _ (if_pos ((KeyMasking.pinSingular_iff s.pin).2 h))

/-! ## UNMASK (R168 to R173) -/

theorem exec_unmask_of_nonsingular (h : (matP s.pin).det ≠ 0) :
    exec .unmask s
      = .next ({ s with
          offs := offsetsOf Config.hw s.pin
          seedOut := truncBank (recoveredSeed Config.hw s.pin s.skey) }.complete .ok
            { seedRange := outOfByteRange (recoveredSeed Config.hw s.pin s.skey) }) := by
  have hprod : det4 (productMatrix Config.hw s.pin) ≠ 0 := fun hz =>
    h ((det4_productMatrix_eq_zero_iff Invariant.hw_wf s.pin).1 hz)
  have hpin : pinSingular s.pin = false := Bool.eq_false_iff.2 fun hs => h ((KeyMasking.pinSingular_iff s.pin).1 hs)
  simp only [exec, execUnmask, unmaskCmd, if_neg hprod, hpin]

theorem exec_unmask_of_singular (h : (matP s.pin).det = 0) :
    exec .unmask s
      = .next ({ s with offs := offsetsOf Config.hw s.pin }.complete .notInvertible { pinsing := true }) := by
  have hprod : det4 (productMatrix Config.hw s.pin) = 0 := (det4_productMatrix_eq_zero_iff Invariant.hw_wf s.pin).2 h
  simp only [exec, execUnmask, unmaskCmd, if_pos hprod, (KeyMasking.pinSingular_iff s.pin).2 h]

theorem outOfByteRange_iff (out : Fin 16 → ℤ) : outOfByteRange out = true ↔ ∃ i, out i < 0 ∨ 255 < out i := by
  simp [outOfByteRange]

/-- At offset 0 the matrix is the sequence row by row (R130). -/
theorem toMatrix_zero {V : Type} (q : Fin 16 → V) (r c : Fin 4) : toMatrix q 0 r c = q (flatIndex r c) := by
  have hidx : idx16 (0 + 4 * r.val + c.val) = flatIndex r c := by
    ext
    simp only [idx16, flatIndex]
    omega
  rw [toMatrix, hidx]

/-- S = toMatrix(SKEY, 0) (R168). -/
theorem of_toRat_toMatrix_skey (skey : Bank Word) : Matrix.of (toRat (toMatrix (unsignedSeq skey) 0)) = matS skey := by
  ext r c
  simp [toRat, matS, unsignedSeq, toMatrix_zero]

theorem of_toRat_productMatrix (pin : Bank Byte) :
    Matrix.of (toRat (productMatrix Config.hw pin)) = (matC pin * matP pin).map fun x : ℤ => (x : ℚ) := by
  rw [← of_productMatrix]
  rfl

theorem det4_toRat_productMatrix_ne_zero (hP : P.wf = true) {pin : Bank Byte} (h : (matP pin).det ≠ 0) :
    det4 (toRat (productMatrix P pin)) ≠ 0 := by
  rw [det4_toRat, Int.cast_ne_zero, Ne, det4_productMatrix_eq_zero_iff hP]
  exact h

/-- K'' as UNMASK computes it: `inv(Pr) · S` (R168). -/
def solution (P : Params) (pin : Bank Byte) (skey : Bank Word) : Mat ℚ :=
  matMul (matInv (toRat (productMatrix P pin))) (toRat (toMatrix (unsignedSeq skey) 0))

/-- The recovered seed is K'' unscrambled, flattened from oK and rounded (R169). -/
theorem recoveredSeed_eq (P : Params) (pin : Bank Byte) (skey : Bank Word) :
    recoveredSeed P pin skey
      = toSequence (unscramble (solution P pin skey) (mixSeed P pin) .seed) (keySeedOffset P pin : ℤ) := rfl

/-- K'' solves Pr · K'' = S exactly (R168). -/
theorem product_mul_solution (skey : Bank Word) {pin : Bank Byte} (h : (matP pin).det ≠ 0) :
    ((matC pin * matP pin).map fun x : ℤ => (x : ℚ)) * Matrix.of (solution Config.hw pin skey) = matS skey := by
  rw [solution, ← of_toRat_productMatrix, ← matMul_eq,
    matMul_matInv _ (det4_toRat_productMatrix_ne_zero Invariant.hw_wf h), of_toRat_toMatrix_skey]

/-! ## The round trip (R170) -/

/-- S is Pr · K' where SKEY holds the StorageKey. -/
theorem toMatrix_skey_of_storageKey {pin seed : Bank Byte} {skey : Bank Word}
    (h : ∀ i, ((bankGet skey i).toNat : ℤ) = storageKey P pin seed i) :
    toMatrix (unsignedSeq skey) 0 = matMul (productMatrix P pin) (seedMatrix P pin seed) := by
  funext r c
  rw [toMatrix_zero, unsignedSeq, h, storageKey_apply, rowOf_flatIndex, colOf_flatIndex]

/-- The exact inverse, the unscramble and the flattening undo the product, the scramble and the folding, in turn. -/
theorem recoveredSeed_of_storageKey (hP : P.wf = true) {pin seed : Bank Byte} {skey : Bank Word}
    (hdet : (matP pin).det ≠ 0) (h : ∀ i, ((bankGet skey i).toNat : ℤ) = storageKey P pin seed i) :
    recoveredSeed P pin skey = unsignedSeq seed := by
  have hscramble : toRat (seedMatrix P pin seed)
      = scramble (toRat (toMatrix (unsignedSeq seed) (keySeedOffset P pin : ℤ))) (mixSeed P pin) .seed := rfl
  rw [recoveredSeed_eq, solution, toMatrix_skey_of_storageKey h, toRat_matMul,
    matInv_matMul _ (det4_toRat_productMatrix_ne_zero hP hdet), hscramble, Scrambler.unscramble_scramble,
    Scrambler.toSequence_toMatrix]

/-- A seed byte is in range, and its truncation to 64 bits is its zero extension. -/
theorem outOfByteRange_unsignedSeq (seed : Bank Byte) : outOfByteRange (unsignedSeq seed) = false := by
  rw [Bool.eq_false_iff, Ne, outOfByteRange_iff]
  rintro ⟨i, hi⟩
  have := unsignedSeq_bounds seed i
  omega

theorem bankGet_truncBank_unsignedSeq (seed : Bank Byte) (i : Fin 16) :
    bankGet (truncBank (unsignedSeq seed)) i = (bankGet seed i).setWidth 64 := by
  rw [truncBank, bankGet_bankOf, unsignedSeq]
  apply BitVec.eq_of_toNat_eq
  have := (bankGet seed i).isLt
  rw [BitVec.toNat_ofInt, BitVec.toNat_setWidth]
  omega

end Sys2Proof.Proofs.StorageKey

namespace Sys2Proof.Proofs

open Sys2Proof.Machine Sys2Proof.Claims Sys2Proof.Laws

/-- Settles O23: the offset is two digits of the sum in base 16, of which a byte keeps both. -/
theorem offsetIsBitsSevenToFour : Obligations.OffsetIsBitsSevenToFour := by
  intro pin c
  refine ⟨KeyMasking.ofs_eq pin c, ?_, StorageKey.pinTotal_le pin⟩
  rw [KeyMasking.ofs_eq, offset, BitVec.extractLsb'_toNat, BitVec.toNat_ofNat, Nat.shiftRight_eq_div_pow]
  omega

/-- Settles O25: the two paths of MASK, and the StorageKey as the sum of products, which is not truncated. -/
theorem maskWritesStorageKey : Obligations.MaskWritesStorageKey := by
  intro s
  refine ⟨fun h => ⟨_, _, StorageKey.exec_mask_of_nonsingular h, KeyMasking.holdsOffsets_offsetsOf s.pin, fun i j => ?_⟩,
    fun h => ⟨_, StorageKey.exec_mask_of_singular h, KeyMasking.holdsOffsets_offsetsOf s.pin⟩⟩
  rw [StorageKey.toNat_truncBank_storageKey Invariant.hw_wf, StorageKey.storageKey_eq_sum]

/-- Settles O26: the bound by the largest entry (`StorageKey.storageKey_bounds`), and T_LIMIT for the largest that is
admitted. -/
theorem storageKeyFitsRegister : Obligations.StorageKeyFitsRegister := by
  intro P pin seed i top hP htop
  obtain ⟨hlo, hhi⟩ := StorageKey.storageKey_bounds P pin seed i htop
  exact ⟨hlo, hhi, StorageKey.storageKey_lt hP pin seed i⟩

/-- Settles O27: the determinant of the product, of which R7 item 3 keeps one factor from being 0. -/
theorem productSingularIffPinSingular : Obligations.ProductSingularIffPinSingular :=
  StorageKey.det4_productMatrix_eq_zero_iff Invariant.hw_wf

/-- Settles O28: K'' is the exact solution (`StorageKey.product_mul_solution`), K its unscramble, and the output the
rounded entries of K from oK on. -/
theorem unmaskRecoversSeed : Obligations.UnmaskRecoversSeed := by
  intro s
  refine ⟨fun h => ⟨_, _, _, Matrix.of (StorageKey.solution Config.hw s.pin s.skey),
      Matrix.of (unscramble (StorageKey.solution Config.hw s.pin s.skey) (mixS s.pin) .seed),
      recoveredSeed Config.hw s.pin s.skey, StorageKey.exec_unmask_of_nonsingular h,
      KeyMasking.holdsOffsets_offsetsOf s.pin, StorageKey.product_mul_solution s.skey h, fun r c => ?_, fun r c => ?_,
      fun i => bankGet_bankOf _ i, StorageKey.outOfByteRange_iff _⟩,
    fun h => ⟨_, StorageKey.exec_unmask_of_singular h, KeyMasking.holdsOffsets_offsetsOf s.pin⟩⟩
  · exact Scrambler.unscramble_apply_scramblePi (StorageKey.solution Config.hw s.pin s.skey) (mixS s.pin) .seed r c
  · rw [StorageKey.recoveredSeed_eq, keySeedOffset, KeyMasking.ofs_eq, KeyMasking.mixSeed_eq, oK,
      Scrambler.toSequence_natCast, Matrix.of_apply]

/-- Settles O29: SKEY holds the StorageKey untruncated, from which UNMASK recovers the seed
(`StorageKey.recoveredSeed_of_storageKey`). -/
theorem maskUnmaskRoundTrip : Obligations.MaskUnmaskRoundTrip := by
  intro s h
  refine ⟨_, StorageKey.exec_mask_of_nonsingular h, fun t' hpin hskey => ?_⟩
  have hkey (i : Fin 16) : ((bankGet t'.skey i).toNat : ℤ) = storageKey Config.hw t'.pin s.seed i := by
    rw [hskey, hpin]
    exact StorageKey.toNat_truncBank_storageKey Invariant.hw_wf s.pin s.seed i
  have hdet : (matP t'.pin).det ≠ 0 := by rwa [hpin]
  have hseed := StorageKey.recoveredSeed_of_storageKey Invariant.hw_wf hdet hkey
  refine ⟨_, StorageKey.exec_unmask_of_nonsingular hdet, rfl, ?_, fun i => ?_⟩
  · rw [hseed, complete_flags, StorageKey.outOfByteRange_unsignedSeq]
  · rw [hseed, complete_seedOut, StorageKey.bankGet_truncBank_unsignedSeq]

end Sys2Proof.Proofs
end

section
/-! Proofs of the codec laws and of DEC_PIX (42_channel_codec.md R204, R209): the last bit of a pattern is the last bit
of its last digit's code, so overwriting it overwrites the last bit of the value. -/

namespace Sys2Proof.Proofs.PixelCodec

open Sys2Proof.Machine Sys2Proof.Claims Sys2Proof.Laws

/-! ## The codec laws (R204) -/

/-- The spec's pattern of a number decodes to it. -/
theorem decodes_channelCode {v : Nat} (h : v ≤ 999) : Decodes (channelCode v) v := by
  unfold channelCode
  split_ifs with hone htwo
  · exact ⟨0, 0, v, by omega, by omega, by omega, .inl ⟨rfl, rfl⟩⟩
  · exact ⟨0, v / 10, v % 10, by omega, by omega, by omega, .inr (.inl ⟨rfl, by omega⟩)⟩
  · exact ⟨v / 100, v / 10 % 10, v % 10, by omega, by omega, by omega, .inr (.inr ⟨rfl, by omega⟩)⟩

theorem decodeChannel_encodeChannel {v : Nat} (h : v ≤ 999) : decodeChannel (encodeChannel v) = some v := by
  rw [ChannelCodec.decodeChannel_eq_some_iff, ChannelCodec.toNat_encodeChannel h]
  exact decodes_channelCode h

theorem channelCode_lt {v : Nat} (h : v ≤ 999) : channelCode v < 2 ^ 24 := by
  rw [← ChannelCodec.toNat_encodeChannel h]
  exact (encodeChannel v).isLt

/-- 0x30 is even, and so are 10 and 100: a pattern and its value have the same last bit, and the other bits do not
depend on it. -/
theorem channelCode_setLast (v : Nat) {b : Nat} (hb : b ≤ 1) :
    channelCode v / 2 * 2 + b = channelCode (v - v % 2 + b) := by
  simp only [channelCode]
  split_ifs <;> omega

theorem channelCode_mod_two (v : Nat) : channelCode v % 2 = v % 2 := by
  simp only [channelCode]
  split_ifs <;> omega

theorem getLsbD_zero_eq {n : Nat} (x : BitVec n) : x.getLsbD 0 = decide (x.toNat % 2 = 1) := by
  rw [BitVec.getLsbD, Nat.testBit_zero]

/-- The pattern x with its last bit replaced by b. -/
theorem toNat_replaceLast (x : BitVec 24) (b : Bool) :
    (x.extractLsb' 1 23 ++ BitVec.ofBool b).toNat = x.toNat / 2 * 2 + b.toNat := by
  have hx := x.isLt
  rw [ChannelCodec.toNat_append_eq_add, BitVec.extractLsb'_toNat, Nat.shiftRight_eq_div_pow, BitVec.toNat_ofBool]
  omega

theorem xor_one_eq_replaceLast (x : BitVec 24) : x ^^^ 1 = x.extractLsb' 1 23 ++ BitVec.ofBool (!x.getLsbD 0) := by
  apply BitVec.eq_of_getLsbD_eq
  intro i hi
  rw [BitVec.getLsbD_append, BitVec.getLsbD_xor]
  cases i with
  | zero => simp
  | succ i =>
    have hone : (1 : BitVec 24).getLsbD (i + 1) = false := by simp [BitVec.getLsbD_one]
    have hi23 : i < 23 := by omega
    rw [hone, if_neg (by omega), BitVec.getLsbD_extractLsb', Nat.add_sub_cancel, Nat.add_comm 1 i]
    simp [hi23]

theorem decodeChannel_replaceLast {v : Nat} (h : v ≤ 998) (b : Bool) :
    decodeChannel ((encodeChannel v).extractLsb' 1 23 ++ BitVec.ofBool b) = some (v - v % 2 + b.toNat) := by
  have hb : b.toNat ≤ 1 := Bool.toNat_le b
  rw [ChannelCodec.decodeChannel_eq_some_iff, toNat_replaceLast, ChannelCodec.toNat_encodeChannel (by omega),
    channelCode_setLast v hb]
  exact decodes_channelCode (by omega)

/-! ## DEC_PIX (R209) -/

variable {s : State}

theorem toNat_pixPattern (s : State) : s.pixPattern.toNat = s.pixPatHi.toNat * 2 ^ 64 + s.pixPatLo.toNat :=
  ChannelCodec.toNat_append_eq_add _ _

/-- The three patterns of a pixel pattern, as numbers (R205). -/
theorem toNat_channels {x : BitVec 72} {xr xg xb : Nat} (hg : xg < 2 ^ 24) (hb : xb < 2 ^ 24)
    (hx : x.toNat = xr * 2 ^ 48 + xg * 2 ^ 24 + xb) :
    (x.extractLsb' 48 24).toNat = xr ∧ (x.extractLsb' 24 24).toNat = xg ∧ (x.extractLsb' 0 24).toNat = xb := by
  simp only [BitVec.extractLsb'_toNat, Nat.shiftRight_eq_div_pow, hx]
  omega

theorem decodePixel_eq_some {x : BitVec 72} {r g b : Nat} (hr : decodeChannel (x.extractLsb' 48 24) = some r)
    (hg : decodeChannel (x.extractLsb' 24 24) = some g) (hb : decodeChannel (x.extractLsb' 0 24) = some b) :
    decodePixel x = some (r, g, b) := by
  simp only [decodePixel, hr, hg, hb]

theorem decodePixel_eq_none {x : BitVec 72}
    (h : decodeChannel (x.extractLsb' 48 24) = none ∨ decodeChannel (x.extractLsb' 24 24) = none
      ∨ decodeChannel (x.extractLsb' 0 24) = none) : decodePixel x = none := by
  unfold decodePixel
  split
  · rename_i hr hg hb
    simp [hr, hg, hb] at h
  · rfl

theorem exec_decPix_of_some {r g b : Nat} (h : decodePixel s.pixPattern = some (r, g, b)) :
    exec .decPix s
      = .next ({ s with pixR := BitVec.ofNat 10 r, pixG := BitVec.ofNat 10 g, pixB := BitVec.ofNat 10 b }.complete
          .ok {}) := by
  simp only [exec, execDecPix, decPixCmd, h]

theorem exec_decPix_of_none (h : decodePixel s.pixPattern = none) : exec .decPix s = .next (s.complete .decode {}) := by
  simp only [exec, execDecPix, decPixCmd, h]

/-- Ten bits hold any value that a pattern decodes to (R203). -/
theorem toNat_ofNat_of_decodes {x v : Nat} (h : Decodes x v) : (BitVec.ofNat 10 v).toNat = v := by
  have := ChannelCodec.decodes_le h
  rw [BitVec.toNat_ofNat, Nat.mod_eq_of_lt (by omega)]

end Sys2Proof.Proofs.PixelCodec

namespace Sys2Proof.Proofs

open Sys2Proof.Machine Sys2Proof.Claims Sys2Proof.Laws

/-- Settles O35: items 3 and 4 are one overwrite of the last bit (`PixelCodec.decodeChannel_replaceLast`). -/
theorem channelCodecLaws : Obligations.ChannelCodecLaws := by
  intro v hv
  have hlast : (encodeChannel v).getLsbD 0 = decide (v % 2 = 1) := by
    rw [PixelCodec.getLsbD_zero_eq, ChannelCodec.toNat_encodeChannel (by omega), PixelCodec.channelCode_mod_two]
  refine ⟨PixelCodec.decodeChannel_encodeChannel (by omega), hlast, fun b => ⟨?_, ?_⟩, ?_⟩
  · exact PixelCodec.decodeChannel_replaceLast (by omega) b
  · have := Bool.toNat_le b
    omega
  · rw [PixelCodec.xor_one_eq_replaceLast, PixelCodec.decodeChannel_replaceLast (by omega), hlast]
    rcases Nat.mod_two_eq_zero_or_one v with h | h
    · simp [h]
    · simp [h]

/-- Settles O34: the pixel pattern is the three patterns in a row (`PixelCodec.toNat_channels`), each of which decodes as
`Decodes` says. -/
theorem decPixWritesValues : Obligations.DecPixWritesValues := by
  intro s xr xg xb _ hg hb hx
  obtain ⟨er, eg, eb⟩ := PixelCodec.toNat_channels hg hb ((PixelCodec.toNat_pixPattern s).trans hx)
  constructor
  · intro r g b dr dg db
    have hpix : decodePixel s.pixPattern = some (r, g, b) :=
      PixelCodec.decodePixel_eq_some (ChannelCodec.decodeChannel_eq_some_iff.2 (er ▸ dr))
        (ChannelCodec.decodeChannel_eq_some_iff.2 (eg ▸ dg)) (ChannelCodec.decodeChannel_eq_some_iff.2 (eb ▸ db))
    exact ⟨_, _, _, PixelCodec.exec_decPix_of_some hpix, PixelCodec.toNat_ofNat_of_decodes dr,
      PixelCodec.toNat_ofNat_of_decodes dg, PixelCodec.toNat_ofNat_of_decodes db⟩
  · intro h
    refine PixelCodec.exec_decPix_of_none (PixelCodec.decodePixel_eq_none ?_)
    exact h.imp (fun hno => ChannelCodec.decodeChannel_eq_none (er ▸ hno))
      (Or.imp (fun hno => ChannelCodec.decodeChannel_eq_none (eg ▸ hno))
        fun hno => ChannelCodec.decodeChannel_eq_none (eb ▸ hno))

/-- Settles O36: ENC_PIX writes the spec's patterns (O33), and DEC_PIX reads their values (O34). -/
theorem encPixThenDecPixRestores : Obligations.EncPixThenDecPixRestores := by
  intro s hr hg hb
  obtain ⟨hi, lo, henc, hpat⟩ := (encPixWritesPattern s).1 hr hg hb
  have hr' : s.pixR.toNat ≤ 999 := by omega
  have hg' : s.pixG.toNat ≤ 999 := by omega
  have hb' : s.pixB.toNat ≤ 999 := by omega
  have hdec := decPixWritesValues
    { s with pixPatHi := hi, pixPatLo := lo, err := .ok, flags := {}, done := true, phase := .idle }
    (channelCode s.pixR.toNat) (channelCode s.pixG.toNat) (channelCode s.pixB.toNat) (PixelCodec.channelCode_lt hr')
    (PixelCodec.channelCode_lt hg') (PixelCodec.channelCode_lt hb') hpat
  obtain ⟨yr, yg, yb, hdec, er, eg, eb⟩ := hdec.1 s.pixR.toNat s.pixG.toNat s.pixB.toNat
    (PixelCodec.decodes_channelCode hr') (PixelCodec.decodes_channelCode hg') (PixelCodec.decodes_channelCode hb')
  exact ⟨_, _, henc, hdec, rfl, BitVec.eq_of_toNat_eq er, BitVec.eq_of_toNat_eq eg, BitVec.eq_of_toNat_eq eb⟩

end Sys2Proof.Proofs
end

section
/-! Proofs of the bitstreams of the payload unit (43_payload.md R232, R238, R243): a stream is what `streamBit` says,
bit by bit, and the detector of EXTRACT fires exactly where `MarkerEndsAt` holds. -/

namespace Sys2Proof.Proofs.Streams

open Sys2Proof.Machine Sys2Proof.Claims Sys2Proof.Laws

variable {f g : Nat → Bool} {byteAt : Nat → Byte} {n m : Nat}

/-! ## Sequences as functions -/

theorem getElem?_prefixOf (f : Nat → Bool) {p : Nat} (h : p < n) : (prefixOf f n)[p]? = some (f p) := by
  simp [prefixOf, h]

theorem prefixOf_congr (h : ∀ p, p < n → f p = g p) : prefixOf f n = prefixOf g n :=
  List.map_congr_left fun p hp => h p (List.mem_range.1 hp)

theorem take_prefixOf (f : Nat → Bool) (h : m ≤ n) : (prefixOf f n).take m = prefixOf f m := by
  rw [prefixOf, prefixOf, ← List.map_take, List.take_range, Nat.min_eq_left h]

/-- A sequence is given by its length and its elements. -/
theorem eq_prefixOf {q : List Bool} (hlen : q.length = n) (h : ∀ p, p < n → q[p]? = some (f p)) : q = prefixOf f n := by
  apply List.ext_getElem?
  intro p
  by_cases hp : p < n
  · rw [h p hp, getElem?_prefixOf f hp]
  · rw [List.getElem?_eq_none (by omega), List.getElem?_eq_none (by rw [prefixOf_length]; omega)]

/-! ## The detector (R238) -/

theorem getElem?_marker {k : Nat} (h : k < 16) : marker[k]? = some (decide (k ≠ 15)) := by
  revert k
  decide

theorem endsInMarker_prefixOf : endsInMarker (prefixOf f n) = true ↔ MarkerEndsAt f n := by
  rw [endsInMarker, MarkerEndsAt, Bool.and_eq_true, decide_eq_true_iff, decide_eq_true_iff, prefixOf_length]
  refine and_congr_right fun hn => ?_
  have hget (k : Nat) (hk : k < 16) : ((prefixOf f n).drop (n - 16))[k]? = some (f (n - 16 + k)) := by
    rw [List.getElem?_drop, getElem?_prefixOf f (by omega)]
  constructor
  · intro h k hk
    have hbit := hget k hk
    rw [h, getElem?_marker hk] at hbit
    exact (Option.some.inj hbit).symm
  · intro h
    apply List.ext_getElem?
    intro k
    by_cases hk : k < 16
    · rw [hget k hk, getElem?_marker hk, h k hk]
    · have hlen : marker.length = 16 := rfl
      rw [List.getElem?_eq_none (by rw [List.length_drop, prefixOf_length]; omega),
        List.getElem?_eq_none (by rw [hlen]; omega)]

theorem endsInMarker_prefixOf_eq_false : endsInMarker (prefixOf f n) = false ↔ ¬ MarkerEndsAt f n := by
  rw [← endsInMarker_prefixOf, Bool.not_eq_true]

theorem markerEndsAt_congr (h : ∀ p, p < n → f p = g p) : MarkerEndsAt f n ↔ MarkerEndsAt g n := by
  rw [← endsInMarker_prefixOf, ← endsInMarker_prefixOf, prefixOf_congr h]

/-! ## The streams (R232) -/

theorem streamBit_of_lt {len p : Nat} (h : p < 8 * len) :
    streamBit byteAt len p = (byteAt (p / 8)).getLsbD (7 - p % 8) := if_pos h

theorem streamBit_of_ge {len p : Nat} (h : 8 * len ≤ p) : streamBit byteAt len p = decide (p ≠ 8 * len + 15) :=
  if_neg (Nat.not_lt.2 h)

/-- The bits of a byte sequence followed by MARKER. -/
theorem bitsOf_append_marker {bs : List Byte} (h : ∀ k, k < bs.length → bs[k]? = some (byteAt k)) :
    bitsOf bs ++ marker = prefixOf (streamBit byteAt bs.length) (8 * bs.length + 16) := by
  have hlen := Payload.length_bitsOf bs
  refine eq_prefixOf (by rw [List.length_append, hlen]; rfl) fun p hp => ?_
  by_cases hdata : p < 8 * bs.length
  · have hbits := Payload.getElem?_bitsOf bs (p / 8) (Nat.mod_lt p (show 0 < 8 by decide))
    rw [Nat.div_add_mod, h (p / 8) (by omega)] at hbits
    rw [List.getElem?_append_left (by omega), hbits, streamBit_of_lt hdata]
    rfl
  · rw [List.getElem?_append_right (by omega), hlen, getElem?_marker (by omega), streamBit_of_ge (by omega)]
    congr 2
    apply propext
    omega

theorem getElem?_engineBytes (d : Nat) (mem : Memory) (a : Nat) {k : Nat} (h : k < n) :
    (engineBytes d mem a n)[k]? = some (engineByte d mem (a + k)) := by
  simp [engineBytes, h]

theorem length_engineBytes (d : Nat) (mem : Memory) (a n : Nat) : (engineBytes d mem a n).length = n := by
  simp [engineBytes]

theorem messageStream_eq (s : State) :
    messageStream s.draws s = prefixOf (streamBit (msgByte s) s.msgLen.toNat) (lm s) := by
  have h := bitsOf_append_marker (byteAt := msgByte s) (bs := engineBytes s.draws s.mem msgBase s.msgLen.toNat)
  rw [length_engineBytes] at h
  exact h fun k hk => getElem?_engineBytes _ _ _ hk

theorem metadataStream_eq (s : State) :
    metadataStream s.draws s = prefixOf (streamBit (metaByte s) s.metaLen.toNat) (ld s) := by
  have h := bitsOf_append_marker (byteAt := metaByte s) (bs := engineBytes s.draws s.mem metaBase s.metaLen.toNat)
  rw [length_engineBytes] at h
  exact h fun k hk => getElem?_engineBytes _ _ _ hk

/-- A stream ends in its own marker. -/
theorem markerEndsAt_streamBit (byteAt : Nat → Byte) (len : Nat) :
    MarkerEndsAt (streamBit byteAt len) (8 * len + 16) := by
  refine ⟨by omega, fun k hk => ?_⟩
  rw [streamBit_of_ge (by omega)]
  congr 1
  apply propext
  omega

/-! ## No false marker in ASCII (R243) -/

/-- In a stream of bytes below 0x80 every eighth data bit is 0, so no marker ends before the stream's own: its fifteen
1 bits would cover one of those zeros, or its 0 bit would fall on a 1 bit of the stream's own marker. -/
theorem not_markerEndsAt_of_ascii {len : Nat} (hascii : ∀ k, k < len → (byteAt k).toNat < 0x80)
    (hm : m < 8 * len + 16) : ¬ MarkerEndsAt (streamBit byteAt len) m := by
  rintro ⟨h16, hbits⟩
  by_cases hzero : 8 * ((m - 16 + 7) / 8) < 8 * len
  · have hbit := hbits (8 * ((m - 16 + 7) / 8) - (m - 16)) (by omega)
    have hpos : m - 16 + (8 * ((m - 16 + 7) / 8) - (m - 16)) = 8 * ((m - 16 + 7) / 8) := by omega
    have hbyte := hascii ((m - 16 + 7) / 8) (by omega)
    rw [hpos, streamBit_of_lt hzero, Nat.mul_mod_right, Nat.mul_div_cancel_left _ (by decide), BitVec.getLsbD,
      Nat.testBit_lt_two_pow hbyte, eq_comm, decide_eq_false_iff_not] at hbit
    omega
  · have hbit := hbits 15 (by decide)
    rw [streamBit_of_ge (by omega), decide_eq_decide] at hbit
    omega

/-- R243 for any sequence that is such a stream. -/
theorem ascii_detector {len : Nat} {q : List Bool} (hq : q = prefixOf (streamBit byteAt len) (8 * len + 16))
    (hascii : ∀ k, k < len → (byteAt k).toNat < 0x80) :
    (∀ m, m < q.length → endsInMarker (q.take m) = false) ∧ endsInMarker q = true := by
  subst hq
  refine ⟨fun m hm => ?_, endsInMarker_prefixOf.2 (markerEndsAt_streamBit byteAt len)⟩
  rw [prefixOf_length] at hm
  rw [take_prefixOf _ hm.le, endsInMarker_prefixOf_eq_false]
  exact not_markerEndsAt_of_ascii hascii hm

end Sys2Proof.Proofs.Streams

namespace Sys2Proof.Proofs

open Sys2Proof.Machine Sys2Proof.Claims Sys2Proof.Laws

/-- Settles O42: a list's stream and EMBED's two are streams of their bytes, on which `Streams.ascii_detector` speaks. -/
theorem asciiStreamHasNoFalseMarker : Obligations.AsciiStreamHasNoFalseMarker := by
  refine ⟨fun bs hascii => ?_, ?_⟩
  · refine Streams.ascii_detector (byteAt := fun k => bs.getD k 0) (Streams.bitsOf_append_marker fun k hk => ?_)
      fun k hk => ?_
    · rw [List.getD_eq_getElem _ _ hk, List.getElem?_eq_getElem hk]
    · rw [List.getD_eq_getElem _ _ hk]
      exact hascii _ (List.getElem_mem hk)
  · rintro s q (⟨rfl, hascii⟩ | ⟨rfl, hascii⟩)
    · exact Streams.ascii_detector (Streams.messageStream_eq s) hascii
    · exact Streams.ascii_detector (Streams.metadataStream_eq s) hascii

end Sys2Proof.Proofs
end

section
/-! Proofs of EMBED (43_payload.md R234 to R237): its capacity check under STRICT, and what the embedding loop leaves
in each pixel. -/

namespace Sys2Proof.Proofs.Embed

open Sys2Proof.Machine Sys2Proof.Claims Sys2Proof.Laws
open Config (Params)

variable {P : Params} {s : State}

theorem not_outOfRange (h : EmbedInRange P s) : ¬ embedOutOfRange P s := fun hout =>
  Payload.embedOutOfRange_iff.1 hout h

/-- The capacity flags and the condition that they report. -/
theorem capacityFlags_or :
    ((embedFlags s).capShort || (embedFlags s).metaTrunc) = true ↔ (s.npix.toNat < lm s ∨ lm s < ld s) := by
  rw [Bool.or_eq_true]
  exact or_congr decide_eq_true_iff decide_eq_true_iff

theorem embedCmd_of_capacity (hin : EmbedInRange P s) (hstrict : s.strictAtIssue = true)
    (hcap : s.npix.toNat < lm s ∨ lm s < ld s) :
    embedCmd P s = { s with xpix := 0 }.complete .capacity (capacityFlags s) := by
  rw [embedCmd, if_neg (not_outOfRange hin), if_pos (by rw [hstrict, capacityFlags_or.2 hcap]; rfl)]
  rfl

theorem embedCmd_of_room (hin : EmbedInRange P s)
    (hroom : s.strictAtIssue = false ∨ (lm s ≤ s.npix.toNat ∧ ld s ≤ lm s)) :
    embedCmd P s = { s with
      mem := embedLoop s.draws s.npix.toNat 0 (messageStream s.draws s) (metadataStream s.draws s) s.mem
      xpix := BitVec.ofNat 32 (min s.npix.toNat (lm s))
      draws := s.draws + 1 }.complete .ok (capacityFlags s) := by
  have hcap : ¬ (s.strictAtIssue && ((embedFlags s).capShort || (embedFlags s).metaTrunc)) = true := by
    rw [Bool.and_eq_true, capacityFlags_or]
    rintro ⟨hstrict, hshort⟩
    rcases hroom with hlegacy | ⟨hnpix, hmeta⟩
    · rw [hstrict] at hlegacy
      cases hlegacy
    · omega
  rw [embedCmd, if_neg (not_outOfRange hin), if_neg hcap]
  rfl

theorem strictAtIssue_of_phase {w : Word} {st : Bool} (h : s.phase = .busy w st) : s.strictAtIssue = st := by
  simp [State.strictAtIssue, h]

theorem toNat_xpix (s : State) : (BitVec.ofNat 32 (min s.npix.toNat (lm s))).toNat = min s.npix.toNat (lm s) := by
  have := s.npix.isLt
  rw [BitVec.toNat_ofNat, Nat.mod_eq_of_lt (by omega)]

/-! ## The pixels after the loop (R236) -/

/-- The memory that EMBED leaves. -/
def embedded (s : State) : Memory :=
  embedLoop s.draws s.npix.toNat 0 (messageStream s.draws s) (metadataStream s.draws s) s.mem

theorem embedCmd_mem_of_room (hin : EmbedInRange P s)
    (hroom : s.strictAtIssue = false ∨ (lm s ≤ s.npix.toNat ∧ ld s ≤ lm s)) : (embedCmd P s).mem = embedded s := by
  rw [embedCmd_of_room hin hroom]
  rfl

theorem read?_embedded_blue {p : Nat} (hp : p < min s.npix.toNat (lm s)) :
    Memory.read? (embedded s) (blueAt p)
      = some (setLast (engineByte s.draws s.mem (blueAt p)) (streamBit (msgByte s) s.msgLen.toNat p)) := by
  obtain ⟨hnpix, hmsg⟩ := lt_min_iff.1 hp
  have h := read?_embedLoop_blue s.draws s.npix.toNat 0 (messageStream s.draws s) (metadataStream s.draws s) s.mem p
    (streamBit (msgByte s) s.msgLen.toNat p) hnpix (by rw [Streams.messageStream_eq, Streams.getElem?_prefixOf _ hmsg])
  rwa [Nat.zero_add] at h

theorem read?_embedded_green {p : Nat} (hp : p < min s.npix.toNat (lm s)) (hd : p < ld s) :
    Memory.read? (embedded s) (greenAt p)
      = some (setLast (engineByte s.draws s.mem (greenAt p)) (streamBit (metaByte s) s.metaLen.toNat p)) := by
  obtain ⟨hnpix, hmsg⟩ := lt_min_iff.1 hp
  have h := read?_embedLoop_green s.draws s.npix.toNat 0 (messageStream s.draws s) (metadataStream s.draws s) s.mem p
    (streamBit (metaByte s) s.metaLen.toNat p) hnpix (by rwa [Commands.length_messageStream])
    (by rw [Streams.metadataStream_eq, Streams.getElem?_prefixOf _ hd])
  rwa [Nat.zero_add] at h

end Sys2Proof.Proofs.Embed

namespace Sys2Proof.Proofs

open Sys2Proof.Machine Sys2Proof.Claims Sys2Proof.Laws

/-- Settles O38: the capacity check fails, and its completion writes XPIX. -/
theorem strictEmbedRefusesCapacity : Obligations.StrictEmbedRefusesCapacity := fun _ _ hp hin hcap =>
  congrArg _ (Embed.embedCmd_of_capacity hin (Embed.strictAtIssue_of_phase hp) hcap)

/-- Settles O39: both checks pass, and each visited pixel takes its two bits; the frame is O12's. -/
theorem embedWritesBothStreams : Obligations.EmbedWritesBothStreams := by
  intro s w st hp hin hroom
  rw [← Embed.strictAtIssue_of_phase hp] at hroom
  have hexec : exec .embed s = .next (embedCmd Config.hw s) := rfl
  have hframe := embedMemoryFrame s _ hexec
  rw [Embed.embedCmd_mem_of_room hin hroom] at hframe
  rw [Embed.embedCmd_of_room hin hroom] at hexec
  exact ⟨Embed.embedded s, _, hexec, Embed.toNat_xpix s,
    fun p hlt => ⟨_, Embed.read?_embedded_blue hlt, setLast_toNat _ _⟩,
    fun p hlt hd => ⟨_, Embed.read?_embedded_green hlt hd, setLast_toNat _ _⟩, hframe⟩

end Sys2Proof.Proofs
end

section
/-! Proofs of EXTRACT and of the round trip (43_payload.md R238 to R242): the loop's accumulators are the bits up to
where each stream stops, and its outputs are the whole bytes of those. -/

namespace Sys2Proof.Proofs.Extract

open Sys2Proof.Machine Sys2Proof.Claims Sys2Proof.Laws
open Config (Params)

variable {P : Params} {s : State} {f g : Nat → Bool} {N n m : Nat} {found : Bool}

/-! ## Where a stream stops (R238) -/

/-- The first marker, if there is one among the first N bits, is where reading stops. -/
theorem stopsAt_unique (h : StopsAt f N n found) (hm : m ≤ N) (hmark : MarkerEndsAt f m)
    (hfirst : ∀ k, k < m → ¬ MarkerEndsAt f k) : n = m ∧ found = true := by
  rcases Nat.lt_trichotomy n m with hlt | rfl | hgt
  · have hfound : found = false := Bool.eq_false_iff.2 fun hf => hfirst n hlt (h.here.1 hf)
    have := h.full hfound
    omega
  · exact ⟨rfl, h.here.2 hmark⟩
  · exact absurd hmark (h.first m hgt)

theorem stopsAt_of_scanned {acc : List Bool} (h : Scanned f acc found n) (hn : n ≤ N)
    (hfull : found = false → n = N) : StopsAt f N n found where
  le := hn
  first m hm := Streams.endsInMarker_prefixOf_eq_false.1 (h.before m hm)
  here := by rw [h.found, Streams.endsInMarker_prefixOf]
  full := hfull

/-- The data bits are the accumulator without its marker (R239). -/
theorem withoutMarker_of_scanned {acc : List Bool} (h : Scanned f acc found n) :
    withoutMarker found acc = prefixOf f (dataBits n found) := by
  unfold withoutMarker dataBits
  rw [h.acc, prefixOf_length]
  split
  · exact Streams.take_prefixOf f (Nat.sub_le _ _)
  · rfl

/-! ## The loop over PIXMEM -/

/-- EXTRACT's loop on the state, read with its own draw. -/
def scan (s : State) : Extraction := extraction s.draws s

theorem stopsAt_msg (s : State) : StopsAt (blueBit s) s.npix.toNat (scan s).pixels (scan s).msgFound := by
  obtain ⟨hscan, -, hfull⟩ := scanning_extractLoop s.npix.toNat (scanning_start (greenBit s) (blueBit s))
  exact stopsAt_of_scanned hscan.msg (Commands.extraction_pixels_le s.draws s)
    fun hf => (hfull hf).trans (Nat.zero_add _)

theorem scan_msgBits (s : State) : (scan s).msgBits = prefixOf (blueBit s) (dataBits (scan s).pixels (scan s).msgFound) :=
  withoutMarker_of_scanned (Commands.scanning_extraction s.draws s).msg

theorem stopsAt_met (s : State) : ∃ nd, StopsAt (greenBit s) (scan s).pixels nd (scan s).metFound
    ∧ (scan s).metBits = prefixOf (greenBit s) (dataBits nd (scan s).metFound) := by
  obtain ⟨nd, hn, hscan, hfull⟩ := (Commands.scanning_extraction s.draws s).met
  exact ⟨nd, stopsAt_of_scanned hscan hn hfull, withoutMarker_of_scanned hscan⟩

theorem extractCmd_of_inRange (h : s.npix.toNat ≤ P.pixMax) :
    extractCmd P s = (writeExtraction s (scan s)).complete (scan s).error (scan s).flags :=
  if_neg (Nat.not_lt.2 h)

/-! ## The outputs (R239) -/

/-- Bit b of byte k, counted from the most significant, is bit 8k + b of the sequence (R231). -/
theorem getLsbD_bytesOf_prefixOf {v : Byte} {k b : Nat} (hk : k < n / 8) (hb : b < 8)
    (hv : (bytesOf (prefixOf f n))[k]? = some v) : v.getLsbD (7 - b) = f (8 * k + b) := by
  have hbits := Payload.getElem?_bytesOf (prefixOf f n) (k := k) (by rwa [prefixOf_length]) hb
  rw [hv, Streams.getElem?_prefixOf f (by omega)] at hbits
  exact Option.some.inj hbits

/-- The message bytes are not overwritten by the metadata bytes: METABUF lies above MSGBUF. -/
theorem read?_writeExtraction_msg (hP : P.wf = true) (hn : s.npix.toNat ≤ P.pixMax) {k : Nat} {v : Byte}
    (hv : (bytesOf (scan s).msgBits)[k]? = some v) :
    Memory.read? (writeExtraction s (scan s)).mem (msgBase + k) = some v := by
  obtain ⟨hk, rfl⟩ := List.getElem?_eq_some_iff.1 hv
  have hlen := Commands.length_msgBits_le s.draws s
  have hmax := (Invariant.capacities hP).1
  have hbelow : msgBase + k < metaBase := by
    rw [Payload.length_bytesOf] at hk
    simp only [scan] at hk
    simp only [msgBase, metaBase]
    omega
  exact (read?_writeList_outside _ _ (.inl hbelow)).trans (read?_writeList_inside _ _ _ _ hk)

theorem read?_writeExtraction_met {k : Nat} {v : Byte} (hv : (bytesOf (scan s).metBits)[k]? = some v) :
    Memory.read? (writeExtraction s (scan s)).mem (metaBase + k) = some v := by
  obtain ⟨hk, rfl⟩ := List.getElem?_eq_some_iff.1 hv
  exact read?_writeList_inside _ _ _ _ hk

theorem toNat_xpix (s : State) : (writeExtraction s (scan s)).xpix.toNat = (scan s).pixels := by
  have hle : (scan s).pixels ≤ s.npix.toNat := Commands.extraction_pixels_le s.draws s
  have := s.npix.isLt
  exact (BitVec.toNat_ofNat _ _).trans (Nat.mod_eq_of_lt (by omega))

theorem toNat_xmsgLen (s : State) : (writeExtraction s (scan s)).xmsgLen.toNat = (scan s).msgBits.length / 8 :=
  Commands.toNat_byteCount (Commands.length_msgBits_le s.draws s)

theorem toNat_xmetaLen (s : State) : (writeExtraction s (scan s)).xmetaLen.toNat = (scan s).metBits.length / 8 :=
  Commands.toNat_byteCount (Commands.length_metBits_le s.draws s)

/-! ## After EMBED (R242) -/

/-- A bit that EMBED left in the last place of a byte is read back. -/
theorem lastBit_of_read? {d a : Nat} {mem : Memory} {v : Byte} {x : Bool}
    (h : Memory.read? mem a = some (setLast v x)) : (engineByte d mem a).getLsbD 0 = x := by
  rw [engineByte_of_read? d h]
  exact lastBit_setLast v x

/-- Where the bits read are those of a stream without a false marker, reading stops at the stream's end. -/
theorem stopsAt_stream {byteAt : Nat → Byte} {len : Nat} (h : StopsAt f N n found) (hN : 8 * len + 16 ≤ N)
    (hbits : ∀ p, p < 8 * len + 16 → f p = streamBit byteAt len p)
    (hno : ∀ k, k < 8 * len + 16 → ¬ MarkerEndsAt (streamBit byteAt len) k) : n = 8 * len + 16 ∧ found = true := by
  refine stopsAt_unique h hN ?_ fun k hk hmark => hno k hk ?_
  · exact (Streams.markerEndsAt_congr hbits).2 (Streams.markerEndsAt_streamBit byteAt len)
  · exact (Streams.markerEndsAt_congr fun p hp => hbits p (hp.trans hk)).1 hmark

/-- EXTRACT over two such streams finds both markers, and its data bits are the streams' without them. -/
theorem scan_of_streams (s : State) {msgAt metaAt : Nat → Byte} {msgLen metaLen : Nat}
    (hroom : 8 * msgLen + 16 ≤ s.npix.toNat) (hlen : 8 * metaLen + 16 ≤ 8 * msgLen + 16)
    (hblue : ∀ p, p < 8 * msgLen + 16 → blueBit s p = streamBit msgAt msgLen p)
    (hgreen : ∀ p, p < 8 * metaLen + 16 → greenBit s p = streamBit metaAt metaLen p)
    (hnomsg : ∀ k, k < 8 * msgLen + 16 → ¬ MarkerEndsAt (streamBit msgAt msgLen) k)
    (hnometa : ∀ k, k < 8 * metaLen + 16 → ¬ MarkerEndsAt (streamBit metaAt metaLen) k) :
    (scan s).error = .ok ∧ (scan s).pixels = 8 * msgLen + 16
      ∧ (scan s).msgBits = prefixOf (blueBit s) (8 * msgLen)
      ∧ (scan s).metBits = prefixOf (greenBit s) (8 * metaLen) := by
  obtain ⟨hpixels, hmsg⟩ := stopsAt_stream (stopsAt_msg s) hroom hblue hnomsg
  obtain ⟨nd, hstop, hmetBits⟩ := stopsAt_met s
  obtain ⟨rfl, hmet⟩ := stopsAt_stream hstop (hlen.trans_eq hpixels.symm) hgreen hnometa
  have hmsgBits := scan_msgBits s
  rw [hpixels, hmsg] at hmsgBits
  rw [hmet] at hmetBits
  exact ⟨by rw [Extraction.error, hmsg, hmet]; rfl, hpixels, hmsgBits, hmetBits⟩

/-- The bytes of a stream's data bits are the bytes it was made from (R231). -/
theorem bytesOf_stream {byteAt : Nat → Byte} {len : Nat} {bs : List Byte} (hlen : bs.length = len)
    (hbs : ∀ k, k < len → bs[k]? = some (byteAt k)) (hbits : ∀ p, p < 8 * len + 16 → f p = streamBit byteAt len p) :
    bytesOf (prefixOf f (8 * len)) = bs := by
  subst hlen
  have hdata : prefixOf f (8 * bs.length) = bitsOf bs := by
    rw [Streams.prefixOf_congr fun p hp => hbits p (by omega),
      ← Streams.take_prefixOf _ (Nat.le_add_right (8 * bs.length) 16), ← Streams.bitsOf_append_marker hbs,
      List.take_left' (Payload.length_bitsOf bs)]
  rw [hdata, Payload.bytesOf_bitsOf]

end Sys2Proof.Proofs.Extract

namespace Sys2Proof.Proofs

open Sys2Proof.Machine Sys2Proof.Claims Sys2Proof.Laws

/-- Settles O40: the two streams stop where `Extract.stopsAt_msg` and `Extract.stopsAt_met` say, and the outputs are
their data bits as bytes; the frame is O13's. -/
theorem extractReadsBothStreams : Obligations.ExtractReadsBothStreams := by
  intro s hn
  obtain ⟨nd, hstop, hmet⟩ := Extract.stopsAt_met s
  have hmsg := Extract.scan_msgBits s
  have hexec : exec .extract s
      = .next ((writeExtraction s (Extract.scan s)).complete (Extract.scan s).error (Extract.scan s).flags) :=
    congrArg _ (Extract.extractCmd_of_inRange hn)
  have hxmsg := Extract.toNat_xmsgLen s
  have hxmeta := Extract.toNat_xmetaLen s
  rw [hmsg, prefixOf_length] at hxmsg
  rw [hmet, prefixOf_length] at hxmeta
  refine ⟨_, (Extract.scan s).pixels, nd, (Extract.scan s).msgFound, (Extract.scan s).metFound, hexec, ?_,
    Extract.stopsAt_msg s, hstop, Extract.toNat_xpix s, hxmsg, hxmeta, fun k hk => ?_, fun k hk => ?_,
    extractMemoryFrame s _ hexec⟩
  · simp only [Extraction.flags, hmsg, hmet, prefixOf_length]
    rfl
  · rw [complete_xmsgLen, hxmsg] at hk
    have hlen : k < (bytesOf (Extract.scan s).msgBits).length := by
      rwa [Payload.length_bytesOf, hmsg, prefixOf_length]
    have hv := List.getElem?_eq_getElem hlen
    refine ⟨_, Extract.read?_writeExtraction_msg Invariant.hw_wf hn hv, fun b hb => ?_⟩
    exact Extract.getLsbD_bytesOf_prefixOf hk hb (hmsg ▸ hv)
  · rw [complete_xmetaLen, hxmeta] at hk
    have hlen : k < (bytesOf (Extract.scan s).metBits).length := by
      rwa [Payload.length_bytesOf, hmet, prefixOf_length]
    have hv := List.getElem?_eq_getElem hlen
    refine ⟨_, Extract.read?_writeExtraction_met hv, fun b hb => ?_⟩
    exact Extract.getLsbD_bytesOf_prefixOf hk hb (hmet ▸ hv)

/-- Settles O41: the bits read are the streams that EMBED sent, so each stops at its own marker
(`Extract.stopsAt_stream`) and its data bits are its bytes (`Extract.bytesOf_stream`). -/
theorem embedExtractRoundTrip : Obligations.EmbedExtractRoundTrip := by
  refine ⟨fun s => ⟨rfl, rfl⟩, fun P s hP hin hnpix hmeta hnomsg hnomet => ?_⟩
  refine ⟨by rw [Embed.embedCmd_of_room hin (.inr ⟨hnpix, hmeta⟩)]; rfl, fun t ht hpix => ?_⟩
  rw [Embed.embedCmd_mem_of_room hin (.inr ⟨hnpix, hmeta⟩)] at hpix
  have hblue (p : Nat) (hp : p < lm s) : blueBit t p = streamBit (msgByte s) s.msgLen.toNat p := by
    have hlt : p < s.npix.toNat := by omega
    exact Extract.lastBit_of_read? ((hpix p hlt).1.trans (Embed.read?_embedded_blue (lt_min hlt hp)))
  have hgreen (p : Nat) (hp : p < ld s) : greenBit t p = streamBit (metaByte s) s.metaLen.toNat p := by
    have hlt : p < s.npix.toNat := by omega
    exact Extract.lastBit_of_read? ((hpix p hlt).2.trans (Embed.read?_embedded_green (lt_min hlt (by omega)) hp))
  have htn : t.npix.toNat = s.npix.toNat := by rw [ht]
  obtain ⟨herr, hpixels, hmsgBits, hmetBits⟩ :=
    Extract.scan_of_streams t (hnpix.trans_eq htn.symm) hmeta hblue hgreen hnomsg hnomet
  have hmsgBytes : bytesOf (Extract.scan t).msgBits = engineBytes s.draws s.mem msgBase s.msgLen.toNat := by
    rw [hmsgBits]
    exact Extract.bytesOf_stream (Streams.length_engineBytes _ _ _ _)
      (fun _ hk => Streams.getElem?_engineBytes _ _ _ hk) hblue
  have hmetBytes : bytesOf (Extract.scan t).metBits = engineBytes s.draws s.mem metaBase s.metaLen.toNat := by
    rw [hmetBits]
    exact Extract.bytesOf_stream (Streams.length_engineBytes _ _ _ _)
      (fun _ hk => Streams.getElem?_engineBytes _ _ _ hk) hgreen
  have htmax : t.npix.toNat ≤ P.pixMax := htn.trans_le hin.1
  rw [Extract.extractCmd_of_inRange htmax, complete_err, complete_xmsgLen, complete_xmetaLen, complete_xpix, complete_mem]
  refine ⟨herr, BitVec.eq_of_toNat_eq ?_, BitVec.eq_of_toNat_eq ?_, (Extract.toNat_xpix t).trans hpixels,
    fun k hk => Extract.read?_writeExtraction_msg hP htmax ?_, fun k hk => Extract.read?_writeExtraction_met ?_⟩
  · rw [Extract.toNat_xmsgLen, hmsgBits, prefixOf_length, Nat.mul_div_cancel_left _ (by decide)]
  · rw [Extract.toNat_xmetaLen, hmetBits, prefixOf_length, Nat.mul_div_cancel_left _ (by decide)]
  · rw [hmsgBytes, Streams.getElem?_engineBytes _ _ _ hk, msgByte]
  · rw [hmetBytes, Streams.getElem?_engineBytes _ _ _ hk, metaByte]

end Sys2Proof.Proofs
end
